-- ==== Sys2Proof/Word.lean ====
section
/-! DEFINITION. The fixed-width values of CPAN-CORE (00_scope.md R7, R8, R10): bytes, bus words, 16-byte blocks
and the 32-byte secret. A block or a secret is one bit string, byte 0 in its MOST significant eight bits, so that the
hexadecimal literal of a block reads as the spec writes it ("hex byte strings are written byte 0 first") and the
prefix bit at global position `pos` is the bit `getMsbD pos` (41_cascade.md R140: "the 16 bytes read as one 128-bit
string"). Picking bytes and words out of them is in Machine/Bytes.lean. -/

namespace Sys2Proof

/-- One byte of a byte sequence (R10, R11). -/
abbrev Byte := BitVec 8

/-- One 32-bit bus word: a register of the window, or a command word (R8 `BUS_WIDTH`, R100). -/
abbrev Word := BitVec 32

/-- Sixteen bytes, byte 0 most significant: K, P, X, Y, OUT, Aop, AB, RB (R7 `BLOCK_BYTES`). -/
abbrev Block := BitVec 128

/-- Thirty-two bytes, byte 0 most significant: STAGE (R7 `SECRET_BYTES`, R39). -/
abbrev Secret := BitVec 256

end Sys2Proof
end

