-- ==== Sys2Proof/Syntax.lean ====
section
/-! DEFINITION. The commands of CPAN-CORE as syntax (30_encoding.md R101 to R103, R106): one constructor for each row
of spec/opcode_table.json. -/

namespace Sys2Proof

/-- The address family named by FAM (R106). `other c` is any of the family codes 3 … 7. -/
inductive Family where
  | raw
  | ipv4
  | ipv6
  | other (code : Nat)
  deriving DecidableEq, Repr

/-- A decoded command. Operand fields are unsigned byte counts and flags (R103); the address operand and the secret
are not in the command word: they are in AB and STAGE. -/
inductive Instr where
  /-- SETUP (R120): `slen` is the declared secret length, `asc` says the secret was given as an ASCII string. -/
  | setup (slen : Nat) (asc : Bool)
  /-- ANON (R146): `len` is the declared address length. -/
  | anon (len : Nat) (fam : Family)
  /-- DEANON (R170). -/
  | deanon (len : Nat) (fam : Family)
  /-- RELEASE (R190). -/
  | release
  /-- ANON_U32 (R150), present only when HAS_U32 = 1. -/
  | anonU32
  deriving DecidableEq, Repr

end Sys2Proof
end

