-- ==== Sys2Proof/WellFormed.lean ====
section
/-! DEFINITION. Which commands the encoding can express (30_encoding.md R101): each operand within its field. -/

namespace Sys2Proof

/-- FAM is a 3-bit field whose codes 0, 1, 2 are raw, IPv4, IPv6, so another family has a code 3 … 7 (R106). -/
def Family.wf : Family → Bool
  | .raw => true
  | .ipv4 => true
  | .ipv6 => true
  | .other c => decide (3 ≤ c) && decide (c ≤ 7)

/-- SLEN is 0 … 63 (format S), LEN is 0 … 31 (format A). -/
def Instr.wf : Instr → Bool
  | .setup slen _ => decide (slen < 64)
  | .anon len fam => decide (len < 32) && fam.wf
  | .deanon len fam => decide (len < 32) && fam.wf
  | .release => true
  | .anonU32 => true

/-- The commands an instance has: ANON_U32 exists only when HAS_U32 = 1 (R102, R150). -/
def Instr.present (hasU32 : Bool) : Instr → Bool
  | .setup _ _ => true
  | .anon _ _ => true
  | .deanon _ _ => true
  | .release => true
  | .anonU32 => hasU32

end Sys2Proof
end

