-- ==== Sys2Proof/Decode.lean ====
section
/-! DEFINITION. Decoding a command word (30_encoding.md R104), total on every 32-bit word and rejecting by name
(R107: "A model decodes every 32-bit word: the 5 rows of rule R102 (4 when HAS_U32 = 0), or IllegalCommand"), and after
it the encoder, written from the format tables of R101 and the expansions of R109. -/

namespace Sys2Proof

/-- Why a word is an illegal encoding (R107). All three complete with ERR = IllegalCommand. -/
inductive Reject where
  /-- OPC is 0x0 or 0x6 … 0xF. -/
  | reservedOpcode
  /-- A reserved bit of the word's format is not 0. -/
  | reservedBits
  /-- OPC is 0x5 and HAS_U32 = 0. -/
  | legacyAbsent
  deriving DecidableEq, Repr

/-- R106: the family a FAM code names. -/
def familyOf (code : Nat) : Family :=
  match code with
  | 0 => .raw
  | 1 => .ipv4
  | 2 => .ipv6
  | c => .other c

/-- OPC = w[3:0] (R101). -/
def opcOf (w : Word) : Nat := (w.extractLsb' 0 4).toNat

/-- SLEN = w[9:4] (R101, format S). -/
def slenOf (w : Word) : Nat := (w.extractLsb' 4 6).toNat

/-- ASC = w[10] (R101, format S). -/
def ascOf (w : Word) : Bool := w.getLsbD 10

/-- LEN = w[8:4] (R101, format A). -/
def lenOf (w : Word) : Nat := (w.extractLsb' 4 5).toNat

/-- FAM = w[11:9] (R101, format A). -/
def famOf (w : Word) : Family := familyOf (w.extractLsb' 9 3).toNat

/-- R104: the reserved-bit check comes first (R105). -/
def decode (hasU32 : Bool) (w : Word) : Except Reject Instr :=
  match opcOf w with
  | 1 => if w.extractLsb' 11 21 ≠ 0 then .error .reservedBits else .ok (.setup (slenOf w) (ascOf w))
  | 2 => if w.extractLsb' 12 20 ≠ 0 then .error .reservedBits else .ok (.anon (lenOf w) (famOf w))
  | 3 => if w.extractLsb' 12 20 ≠ 0 then .error .reservedBits else .ok (.deanon (lenOf w) (famOf w))
  | 4 => if w.extractLsb' 4 28 ≠ 0 then .error .reservedBits else .ok .release
  | 5 =>
    if hasU32 = false then .error .legacyAbsent
    else if w.extractLsb' 4 28 ≠ 0 then .error .reservedBits else .ok .anonU32
  | _ => .error .reservedOpcode

/-- The decoder's answer for an instruction of `nbits` bits numbered as spec/opcode_table.json numbers them, bits above
`nbits` being 0, on an instance that has every command (HAS_U32 = 1, R8's default). Every command is one 32-bit word
(R100), which is a bus word and has no byte order of its own. -/
def decodeTableWord (nbits w : Nat) : Option Instr :=
  if w % 2 ^ nbits < 2 ^ 32 then (decode true (BitVec.ofNat 32 (w % 2 ^ nbits))).toOption else none

/-- R106, the other way: the FAM code of a family. -/
def famCode : Family → Nat
  | .raw => 0
  | .ipv4 => 1
  | .ipv6 => 2
  | .other c => c

/-- The command word of a command: the fields of R101 side by side, reserved bits 0, as R109's expansions. -/
def encode : Instr → Word
  | .setup slen asc => 0#21 ++ BitVec.ofBool asc ++ BitVec.ofNat 6 slen ++ 1#4
  | .anon len fam => 0#20 ++ BitVec.ofNat 3 (famCode fam) ++ BitVec.ofNat 5 len ++ 2#4
  | .deanon len fam => 0#20 ++ BitVec.ofNat 3 (famCode fam) ++ BitVec.ofNat 5 len ++ 3#4
  | .release => 0#28 ++ 4#4
  | .anonU32 => 0#28 ++ 5#4

/-- R102, column `match`. -/
def rowMatch : Instr → Word
  | .setup _ _ => 0x00000001
  | .anon _ _ => 0x00000002
  | .deanon _ _ => 0x00000003
  | .release => 0x00000004
  | .anonU32 => 0x00000005

/-- R102, column `mask`. -/
def rowMask : Instr → Word
  | .setup _ _ => 0xFFFFF80F
  | .anon _ _ => 0xFFFFF00F
  | .deanon _ _ => 0xFFFFF00F
  | .release => 0xFFFFFFFF
  | .anonU32 => 0xFFFFFFFF

end Sys2Proof
end

