-- ==== Sys2Proof/Config.lean ====
section
/-! DEFINITION. What is fixed for the hardware (00_scope.md R7, R8), and the values the spec leaves open, as constants
with no body. The two OPEN parameters that software can see or address, BASE and HAS_U32, are straps held in State
(log 3, log 4), so that every statement ranges over all their values. -/

namespace Sys2Proof.Config

/-- R7 `SECRET_BYTES`. -/
def secretBytes : Nat := 32

/-- R7 `MAX_L`: the longest address, in bytes. -/
def maxL : Nat := 16

/-- R7 `IPV4_L`. -/
def ipv4L : Nat := 4

/-- R7 `IPV6_L`. -/
def ipv6L : Nat := 16

/-- R8 `WINDOW_BYTES`: the size of the register window. -/
def windowBytes : Nat := 0x100

/-- FREE VALUE, R8 `LATENCY` (70_reset_and_hazards.md R285, U9): how many host operations pass between the accept step
and the complete step of a command, one unconstrained finite number for each accepted command. The argument is State's
counter `draws` (log 2). -/
opaque latency : Nat → Nat

/-- FREE VALUE (10_state.md R53, U1): what the fields STATUS.KEYED, ZEROED, ERR and RLEN, or a RESn word, read while
BUSY = 1, "a fresh unconstrained value at each such read". The argument is State's counter `draws` (log 5). -/
opaque busyWord : Nat → Word

end Sys2Proof.Config
end

