-- ==== Sys2Proof/Machine/Bytes.lean ====
section
/-! DEFINITION. Bytes and words of blocks: byte order is decided here, once (00_scope.md R10, R14, 20_memory.md R71:
byte 4j of a buffer is in bits [31:24] of register j). -/

namespace Sys2Proof.Machine

/-- `B[i]`, for i in 0 … 15 (R10). -/
def byteOf (b : Block) (i : Nat) : Byte := b.extractLsb' (8 * (15 - i)) 8

/-- The block whose bytes are `f 0`, …, `f 15`. -/
def blockOf (f : Nat → Byte) : Block :=
  f 0 ++ f 1 ++ f 2 ++ f 3 ++ f 4 ++ f 5 ++ f 6 ++ f 7 ++
  f 8 ++ f 9 ++ f 10 ++ f 11 ++ f 12 ++ f 13 ++ f 14 ++ f 15

/-- `B[i] <- v`. -/
def setByte (b : Block) (i : Nat) (v : Byte) : Block :=
  blockOf fun j => if j = i then v else byteOf b j

/-- `B[0..n) ‖ zeros(16 − n)`. -/
def keepBytes (n : Nat) (b : Block) : Block :=
  blockOf fun i => if i < n then byteOf b i else 0

/-- `D[0..n) <- V[0..n)`: the other bytes of `d` stay. -/
def storeBytes (d : Block) (n : Nat) (v : Block) : Block :=
  blockOf fun i => if i < n then byteOf v i else byteOf d i

/-- `word_be(b0, b1, b2, b3)` (R14). -/
def wordBe (b0 b1 b2 b3 : Byte) : Word := b0 ++ b1 ++ b2 ++ b3

/-- Byte i of `bytes_be(w)`, for i in 0 … 3 (R14). -/
def bytesBe (w : Word) (i : Nat) : Byte := w.extractLsb' (8 * (3 - i)) 8

/-- Register j of a 16-byte buffer, for j in 0 … 3 (R71). -/
def wordOf (b : Block) (j : Nat) : Word :=
  wordBe (byteOf b (4 * j)) (byteOf b (4 * j + 1)) (byteOf b (4 * j + 2)) (byteOf b (4 * j + 3))

/-- Writing register j of a 16-byte buffer (R71). -/
def setWord (b : Block) (j : Nat) (w : Word) : Block :=
  blockOf fun i => if i / 4 = j then bytesBe w (i % 4) else byteOf b i

/-- `STAGE[0..16)`, which becomes K (40_setup.md R121). -/
def stageKey (st : Secret) : Block := st.extractLsb' 128 128

/-- `STAGE[16..32)`, which is R (40_setup.md R121). -/
def stagePad (st : Secret) : Block := st.extractLsb' 0 128

/-- `STAGE[i]`, for i in 0 … 31 (R39). -/
def stageByte (st : Secret) (i : Nat) : Byte :=
  if i < 16 then byteOf (stageKey st) i else byteOf (stagePad st) (i - 16)

/-- Writing SECRETj, for j in 0 … 7 (R39): `STAGE[4j] … STAGE[4j+3]`. -/
def setStageWord (st : Secret) (j : Nat) (w : Word) : Secret :=
  if j < 4 then setWord (stageKey st) j w ++ stagePad st
  else stageKey st ++ setWord (stagePad st) (j - 4) w

end Sys2Proof.Machine
end

