-- ==== Sys2Proof/Machine/State.lean ====
section
/-! DEFINITION. The state of CPAN-CORE as plain data: everything 10_state.md gives the block (R31 to R47), the two OPEN
parameters of the instance as straps, and the model's own fields for the host agent and the free values. -/

namespace Sys2Proof.Machine

/-- The AES key schedule `KS` (R42): the eleven round keys of 45_aes128.md R214. -/
structure KeySchedule where
  rk0 : Block
  rk1 : Block
  rk2 : Block
  rk3 : Block
  rk4 : Block
  rk5 : Block
  rk6 : Block
  rk7 : Block
  rk8 : Block
  rk9 : Block
  rk10 : Block
  deriving DecidableEq, Repr

/-- `KS <- 0`: all eleven round keys zero (R190). -/
def KeySchedule.zero : KeySchedule := ⟨0, 0, 0, 0, 0, 0, 0, 0, 0, 0, 0⟩

/-- The hidden scratch state of the engine (R47). -/
structure Scratch where
  /-- the round counter, 0 … 127 -/
  pos : BitVec 7
  /-- the cipher input of the round -/
  x : Block
  /-- the cipher output of the round -/
  y : Block
  /-- the output bit-stream (forward), or the plaintext being rebuilt (inverse) -/
  out : Block
  /-- the operand latched from AB -/
  aop : Block
  deriving DecidableEq, Repr

/-- Scratch when no command is in flight (R52's common epilogue). -/
def Scratch.zero : Scratch := ⟨0, 0, 0, 0, 0⟩

/-- One operation of the host agent (60_exceptions.md R263; the notation of 30_encoding.md R109). -/
inductive HostOp where
  /-- `MemRead(addr, width)`: `addr` is a bus address, `width` a number of bytes. -/
  | read (addr width : Nat)
  /-- `MemWrite(addr, width, v)`. -/
  | write (addr width : Nat) (v : Word)
  /-- `WAIT`: read STATUS again and again until BUSY = 0. -/
  | wait
  /-- assert the reset input (70_reset_and_hazards.md R280, R283). -/
  | reset
  deriving DecidableEq, Repr

/-- A register of the window (R31). -/
inductive Reg where
  | cmd
  | status
  | cap
  | addr (j : Nat)
  | res (j : Nat)
  | secret (j : Nat)
  /-- an offset that R31 does not list (20_memory.md R74) -/
  | reserved
  deriving DecidableEq, Repr

/-- The state of the block, its straps, and the model's own fields. -/
structure State where
  /-- R44: a command is in flight -/
  busy : Bool
  /-- R44: its accepted command word -/
  cur : Word
  /-- R43: K and P hold a valid key and pad -/
  keyed : Bool
  /-- R45: a write was ignored while BUSY -/
  ovr : Bool
  /-- R34: the error code of the last completed command -/
  err : BitVec 4
  /-- R35: how many bytes of RB hold a result -/
  rlen : BitVec 5
  /-- R37: the address buffer, in ADDR0 … ADDR3 -/
  ab : Block
  /-- R38: the result buffer, in RES0 … RES3 -/
  rb : Block
  /-- R39: the secret staging buffer, in SECRET0 … SECRET7 -/
  stage : Secret
  /-- R40: the AES-128 key -/
  k : Block
  /-- R41: the working pad -/
  p : Block
  /-- R42: the key schedule -/
  ks : KeySchedule
  /-- R47: the hidden scratch state -/
  scratch : Scratch
  /-- strap, R8 `BASE`: the bus address of the window (log 3) -/
  base : Nat
  /-- strap, R8 `HAS_U32` (log 4) -/
  hasU32 : Bool
  /-- the model's own: the host's next operations, first first (log 1) -/
  host : List HostOp
  /-- the model's own: what the host's reads returned, newest first (log 6) -/
  seen : List Word
  /-- the model's own: host operations the engine still lets pass before it completes (log 2) -/
  left : Nat
  /-- the model's own: the counter the free values are applied to (log 5) -/
  draws : Nat
  deriving DecidableEq, Repr

/-- Why the machine stops with a fault. -/
inductive Fault where
  /-- Raised by a host access that is not one 32-bit word at a word-aligned offset of the window (20_memory.md R75):
  "The model treats such an access as a fault of the host agent". Safe: the block refuses the access and keeps its
  state, and the model stops (log 7). -/
  | busError (addr width : Nat)
  deriving DecidableEq, Repr

/-- Why the model has no meaning for an instruction. -/
inductive Refusal where
  /-- Raised by an arm of `exec` whose instruction has no meaning yet. Safe: the model stops. No arm raises it. -/
  | notModelled (mnemonic : String)
  deriving DecidableEq, Repr

/-- The machine right after reset (R54, R280), on an instance with R8's default HAS_U32 = 1 whose window is at bus
address 0 (log 3), with a host that has nothing to do yet (log 1). -/
def State.reset : State where
  busy := false
  cur := 0
  keyed := false
  ovr := false
  err := 0
  rlen := 0
  ab := 0
  rb := 0
  stage := 0
  k := 0
  p := 0
  ks := KeySchedule.zero
  scratch := Scratch.zero
  base := 0
  hasU32 := true
  host := []
  seen := []
  left := 0
  draws := 0

end Sys2Proof.Machine
end

