-- ==== Sys2Proof/Machine/Operands.lean ====
section
/-! DEFINITION. The operands of commands: error kinds (60_exceptions.md R240), the effective length (41_cascade.md
R142), and the ASCII check of a staged secret (40_setup.md R124). -/

namespace Sys2Proof.Machine

/-- The error kinds a command can record (R240), and `none`. `Internal` (5) is defined and never raised (R245). -/
inductive ErrorKind where
  | none
  | invalidKey
  | invalidInput
  | invalidFamily
  | disposed
  | internal
  | illegalCommand
  deriving DecidableEq, Repr

/-- The code of an error kind in STATUS.ERR (R240). -/
def errCode : ErrorKind → BitVec 4
  | .none => 0
  | .invalidKey => 1
  | .invalidInput => 2
  | .invalidFamily => 3
  | .disposed => 4
  | .internal => 5
  | .illegalCommand => 6

/-- `Resolve(LEN, FAM)` (R142): the effective length, or the error. The family is checked before the length. -/
def resolve (len : Nat) (fam : Family) : Except ErrorKind Nat :=
  match fam with
  | .raw => if len = 0 then .error .invalidInput else .ok (min len Config.maxL)
  | .ipv4 => if len < Config.ipv4L then .error .invalidInput else .ok Config.ipv4L
  | .ipv6 => if len < Config.ipv6L then .error .invalidInput else .ok Config.ipv6L
  | .other _ => .error .invalidFamily

/-- `exists i in 0..31: STAGE[i][7] = 1` (R120): a staged byte is not ASCII. -/
def stageNotAscii (st : Secret) : Bool :=
  (List.range Config.secretBytes).any fun i => (stageByte st i).getLsbD 7

end Sys2Proof.Machine
end

