-- ==== Sys2Proof/Machine/Flags.lean ====
section
/-! DEFINITION. The flag words of the window: ZEROED (10_state.md R46), STATUS (R33, R53) and CAP (R36). -/

namespace Sys2Proof.Machine

/-- ZEROED (R46): computed from all secret-bearing state. -/
def zeroed (s : State) : Bool :=
  decide (s.k = 0) && decide (s.p = 0) && decide (s.ks = KeySchedule.zero) && decide (s.stage = 0) &&
    decide (s.scratch = Scratch.zero)

/-- A STATUS word from its fields (R33): [31:13] zero, RLEN, ERR, OVR, ZEROED, KEYED, BUSY. -/
def packStatus (rlen : BitVec 5) (err : BitVec 4) (ovr zeroed keyed busy : Bool) : Word :=
  0#19 ++ rlen ++ err ++ BitVec.ofBool ovr ++ BitVec.ofBool zeroed ++ BitVec.ofBool keyed ++ BitVec.ofBool busy

/-- What STATUS reads (R33). While BUSY = 1 the fields RLEN, ERR, ZEROED and KEYED are those of the free word `free`
(R53); BUSY and OVR read their current values and the reserved bits read 0. -/
def statusWord (free : Word) (s : State) : Word :=
  if s.busy then
    packStatus (free.extractLsb' 8 5) (free.extractLsb' 4 4) s.ovr (free.getLsbD 2) (free.getLsbD 1) true
  else packStatus s.rlen s.err s.ovr (zeroed s) s.keyed false

/-- CAP (R36): SECRET_BYTES = 32 in [21:16], MAX_L = 16 in [12:8], HAS_U32 in [0], every other bit 0. -/
def capWord (hasU32 : Bool) : Word := 0#10 ++ 32#6 ++ 0#3 ++ 16#5 ++ 0#7 ++ BitVec.ofBool hasU32

end Sys2Proof.Machine
end

