-- ==== Sys2Proof/Machine/Ops.lean ====
section
/-! DEFINITION. The shared operations on State: `fail` (the block's whole error mechanism), the two halves of the
complete step around a command's body, the accept step, an ignored write, reset, and the register window. -/

namespace Sys2Proof.Machine

/-- `fail E` (00_scope.md R13): `ERR <- code(E)`. The caller skips the rest of its body. It transfers no control and
saves nothing (60_exceptions.md R248, R254), so there is no return from it. -/
def fail (e : ErrorKind) (s : State) : State := { s with err := errCode e }

/-- The start of the complete step (10_state.md R52): `ERR <- 0; RLEN <- 0; RB <- zeros(16)`. -/
def startCommand (s : State) : State := { s with err := 0, rlen := 0, rb := 0 }

/-- The common epilogue of the complete step (R52): scratch zero, `CUR <- 0; BUSY <- 0`. -/
def finishCommand (s : State) : State :=
  { s with scratch := Scratch.zero, cur := 0, busy := false, left := 0 }

/-- The accept step (R50): `CUR <- v; OVR <- 0; BUSY <- 1`. The free value LATENCY is drawn here (log 2). -/
def acceptCommand (v : Word) (s : State) : State :=
  { s with cur := v, ovr := false, busy := true, left := Config.latency s.draws, draws := s.draws + 1 }

/-- A write to CMD, ADDRn or SECRETn while BUSY = 1 (R45): ignored, and OVR set. -/
def ignoreWrite (s : State) : State := { s with ovr := true }

/-- `Reset()` (70_reset_and_hazards.md R280). The straps, the host's list and its log are no state of the block. -/
def resetBlock (s : State) : State :=
  { s with
    busy := false
    cur := 0
    ovr := false
    err := 0
    rlen := 0
    keyed := false
    k := 0
    p := 0
    ks := KeySchedule.zero
    stage := 0
    ab := 0
    rb := 0
    scratch := Scratch.zero
    left := 0 }

/-- `K <- zeros(16); P <- zeros(16); KS <- 0; KEYED <- 0`: what RELEASE (43_lifecycle.md R190) and the implicit
release of SETUP (40_setup.md R122) have in common. -/
def zeroiseKey (s : State) : State := { s with k := 0, p := 0, ks := KeySchedule.zero, keyed := false }

/-- `STAGE <- zeros(32)` (40_setup.md R127, 43_lifecycle.md R191). -/
def zeroiseStage (s : State) : State := { s with stage := 0 }

/-- The register map of R31, one row a register. -/
def regTable : List (Nat × Reg) :=
  [(0x000, .cmd), (0x004, .status), (0x008, .cap)] ++
  [(0x010, .addr 0), (0x014, .addr 1), (0x018, .addr 2), (0x01C, .addr 3)] ++
  [(0x020, .res 0), (0x024, .res 1), (0x028, .res 2), (0x02C, .res 3)] ++
  [(0x040, .secret 0), (0x044, .secret 1), (0x048, .secret 2), (0x04C, .secret 3),
   (0x050, .secret 4), (0x054, .secret 5), (0x058, .secret 6), (0x05C, .secret 7)]

/-- The register at an offset: an offset that R31 does not list is reserved (20_memory.md R74). -/
def regAt (off : Nat) : Reg := (regTable.lookup off).getD .reserved

/-- The offset of a legal access (20_memory.md R75): four bytes, inside the window, at a multiple of 4. -/
def accessOffset (base addr width : Nat) : Option Nat :=
  if width = 4 ∧ base ≤ addr ∧ addr < base + Config.windowBytes ∧ (addr - base) % 4 = 0 then some (addr - base)
  else none

/-- What a register reads (R31 to R39, R53). CMD, SECRETn and reserved offsets read 0. -/
def readReg (r : Reg) (s : State) : Word :=
  match r with
  | .cmd => 0
  | .status => statusWord (Config.busyWord s.draws) s
  | .cap => capWord s.hasU32
  | .addr j => wordOf s.ab j
  | .res j => if s.busy then Config.busyWord s.draws else wordOf s.rb j
  | .secret _ => 0
  | .reserved => 0

/-- A host read gives its word to the host and changes nothing of the block (20_memory.md R77); the counter of free
values goes on, so that the next read draws a fresh value (R53). -/
def recordRead (r : Reg) (s : State) : State :=
  { s with seen := readReg r s :: s.seen, draws := s.draws + 1 }

/-- A host write (R31, R32, R37, R39, R45, R50): to a read-only or reserved register it does nothing. -/
def writeReg (r : Reg) (v : Word) (s : State) : State :=
  match r with
  | .cmd => if s.busy then ignoreWrite s else acceptCommand v s
  | .status => s
  | .cap => s
  | .addr j => if s.busy then ignoreWrite s else { s with ab := setWord s.ab j v }
  | .res _ => s
  | .secret j => if s.busy then ignoreWrite s else { s with stage := setStageWord s.stage j v }
  | .reserved => s

end Sys2Proof.Machine
end

