-- ==== Sys2Proof/Machine/Release.lean ====
section
/-! DEFINITION. RELEASE (43_lifecycle.md R190 to R198). -/

namespace Sys2Proof.Machine

/-- RELEASE (R190): K, P, every round key of KS, STAGE and KEYED become zero. It never fails (R192). The complete
step's epilogue then zeroes the scratch. -/
def execRelease (s : State) : Host.Outcome State Fault Refusal :=
  .next (zeroiseStage (zeroiseKey s))

end Sys2Proof.Machine
end

