-- ==== Sys2Proof/Machine/Aes.lean ====
section
/-! DEFINITION. The AES-128 block function as 45_aes128.md gives it (R210 to R218). The 4×4 state `s[r, c]` of R211 is
kept in the layout of the block itself, `s[r, c] = x[r + 4c]`, so InMap and OutMap are the identity on it. -/

namespace Sys2Proof.Machine

/-- `s[r, c]` (R211). -/
def cellOf (s : Block) (r c : Nat) : Byte := byteOf s (r + 4 * c)

/-- The block whose state bytes are `s[r, c] = f r c` (R211). -/
def blockOfCells (f : Nat → Nat → Byte) : Block := blockOf fun i => f (i % 4) (i / 4)

/-- SBOX, one row of R213's table a line: row is the high nibble, column the low nibble. -/
def sboxRows : List Block := [
  0x637c777bf26b6fc53001672bfed7ab76,
  0xca82c97dfa5947f0add4a2af9ca472c0,
  0xb7fd9326363ff7cc34a5e5f171d83115,
  0x04c723c31896059a071280e2eb27b275,
  0x09832c1a1b6e5aa0523bd6b329e32f84,
  0x53d100ed20fcb15b6acbbe394a4c58cf,
  0xd0efaafb434d338545f9027f503c9fa8,
  0x51a3408f929d38f5bcb6da2110fff3d2,
  0xcd0c13ec5f974417c4a77e3d645d1973,
  0x60814fdc222a908846eeb814de5e0bdb,
  0xe0323a0a4906245cc2d3ac629195e479,
  0xe7c8376d8dd54ea96c56f4ea657aae08,
  0xba78252e1ca6b4c6e8dd741f4bbd8b8a,
  0x703eb5664803f60e613557b986c11d9e,
  0xe1f8981169d98e949b1e87e9ce5528df,
  0x8ca1890dbfe6426841992d0fb054bb16]

/-- `SBOX[v]` (R213). -/
def sbox (v : Byte) : Byte := byteOf (sboxRows.getD (v.toNat / 16) 0) (v.toNat % 16)

/-- `xtime(a)` (R212), which is `mul(a, 2)`. -/
def xtime (a : Byte) : Byte := (a <<< 1) ^^^ (if a.getLsbD 7 then 0x1B else 0x00)

/-- `mul(a, 3)` (R212). -/
def mulThree (a : Byte) : Byte := xtime a ^^^ a

/-- `SubBytes(s)` (R213). -/
def subBytes (s : Block) : Block := blockOfCells fun r c => sbox (cellOf s r c)

/-- `ShiftRows(s)` (R216). -/
def shiftRows (s : Block) : Block := blockOfCells fun r c => cellOf s r ((c + r) % 4)

/-- Row r of a column of `MixColumns(s)` (R217), from the column's bytes a0 … a3. -/
def mixCell (r : Nat) (a0 a1 a2 a3 : Byte) : Byte :=
  match r with
  | 0 => xtime a0 ^^^ mulThree a1 ^^^ a2 ^^^ a3
  | 1 => a0 ^^^ xtime a1 ^^^ mulThree a2 ^^^ a3
  | 2 => a0 ^^^ a1 ^^^ xtime a2 ^^^ mulThree a3
  | _ => mulThree a0 ^^^ a1 ^^^ a2 ^^^ xtime a3

/-- `MixColumns(s)` (R217). -/
def mixColumns (s : Block) : Block :=
  blockOfCells fun r c => mixCell r (cellOf s 0 c) (cellOf s 1 c) (cellOf s 2 c) (cellOf s 3 c)

/-- `AddRoundKey(s, RK)` (R218): byte-wise XOR in the layout of R211. -/
def addRoundKey (s rk : Block) : Block := s ^^^ rk

/-- `SubWord` (R214). -/
def subWord (w : Word) : Word :=
  wordBe (sbox (bytesBe w 0)) (sbox (bytesBe w 1)) (sbox (bytesBe w 2)) (sbox (bytesBe w 3))

/-- `RotWord([a0,a1,a2,a3]) = [a1,a2,a3,a0]` (R214). -/
def rotWord (w : Word) : Word := wordBe (bytesBe w 1) (bytesBe w 2) (bytesBe w 3) (bytesBe w 0)

/-- One round key from the one before it: the four words `w[4i] … w[4i+3]` of R214, with `rcon = Rcon[i]`. -/
def nextRoundKey (rcon : Byte) (rk : Block) : Block :=
  let w0 := wordOf rk 0 ^^^ (subWord (rotWord (wordOf rk 3)) ^^^ wordBe rcon 0 0 0)
  let w1 := wordOf rk 1 ^^^ w0
  let w2 := wordOf rk 2 ^^^ w1
  let w3 := wordOf rk 3 ^^^ w2
  w0 ++ w1 ++ w2 ++ w3

/-- `KeyExpansion(k)` (R214), with Rcon[1..10] = 01 02 04 08 10 20 40 80 1b 36. -/
def keyExpansion (k : Block) : KeySchedule :=
  let rk1 := nextRoundKey 0x01 k
  let rk2 := nextRoundKey 0x02 rk1
  let rk3 := nextRoundKey 0x04 rk2
  let rk4 := nextRoundKey 0x08 rk3
  let rk5 := nextRoundKey 0x10 rk4
  let rk6 := nextRoundKey 0x20 rk5
  let rk7 := nextRoundKey 0x40 rk6
  let rk8 := nextRoundKey 0x80 rk7
  let rk9 := nextRoundKey 0x1b rk8
  let rk10 := nextRoundKey 0x36 rk9
  ⟨k, rk1, rk2, rk3, rk4, rk5, rk6, rk7, rk8, rk9, rk10⟩

/-- One of the rounds 1 … 9 of R210. -/
def cipherRound (s rk : Block) : Block := addRoundKey (mixColumns (shiftRows (subBytes s))) rk

/-- The rounds of R210 under a key schedule; there is no MixColumns in round 10. -/
def cipher (ks : KeySchedule) (x : Block) : Block :=
  let s0 := addRoundKey x ks.rk0
  let s1 := cipherRound s0 ks.rk1
  let s2 := cipherRound s1 ks.rk2
  let s3 := cipherRound s2 ks.rk3
  let s4 := cipherRound s3 ks.rk4
  let s5 := cipherRound s4 ks.rk5
  let s6 := cipherRound s5 ks.rk6
  let s7 := cipherRound s6 ks.rk7
  let s8 := cipherRound s7 ks.rk8
  let s9 := cipherRound s8 ks.rk9
  addRoundKey (shiftRows (subBytes s9)) ks.rk10

/-- `AES(k, x)` (R210): the block is encrypted under the key schedule of `k`. -/
def aes (k x : Block) : Block := cipher (keyExpansion k) x

end Sys2Proof.Machine
end

