-- ==== Sys2Proof/Machine/Setup.lean ====
section
/-! DEFINITION. SETUP (40_setup.md R120 to R130). -/

namespace Sys2Proof.Machine

/-- `K <- STAGE[0..16); KS <- KeyExpansion(K); P <- AES(K, STAGE[16..32)); KEYED <- 1` (R120, R121, R125, R126). -/
def loadKey (s : State) : State :=
  { s with
    k := stageKey s.stage
    ks := keyExpansion (stageKey s.stage)
    p := aes (stageKey s.stage) (stagePad s.stage)
    keyed := true }

/-- The body of SETUP between its implicit release and its epilogue. -/
def setupBody (slen : Nat) (asc : Bool) (s : State) : State :=
  if slen < Config.secretBytes then fail .invalidKey s
  else if asc = true ∧ stageNotAscii s.stage = true then fail .invalidKey s
  else loadKey s

/-- SETUP (R120): implicit release (R122), the checks (R123, R124), the key load, and on every path the epilogue
`STAGE <- zeros(32)` (R127). -/
def execSetup (slen : Nat) (asc : Bool) (s : State) : Host.Outcome State Fault Refusal :=
  .next (zeroiseStage (setupBody slen asc (zeroiseKey s)))

end Sys2Proof.Machine
end

