-- ==== Sys2Proof/Machine/Cascade.lean ====
section
/-! DEFINITION. The cipher-input builder, the round bit, the forward cascade with its XOR pipeline (41_cascade.md R140,
R141, R143) and the inverse cascade (42_inverse.md R171). A round works on the scratch registers of R47. -/

namespace Sys2Proof.Machine

/-- `hi` of R140: the top `bit` bits of a byte. A shift by 8 gives 0x00 (R145). -/
def highMask (bit : Nat) : Byte := (0xFF : Byte) <<< (8 - bit)

/-- `BuildX(S, P, pos)` (R140). -/
def buildX (s p : Block) (pos : Nat) : Block :=
  let idx := pos / 8
  let hi := highMask (pos % 8)
  if pos = 0 then p
  else blockOf fun i =>
    if i < idx then byteOf s i
    else if i = idx then (byteOf s idx &&& hi) ||| (byteOf p idx &&& ~~~hi)
    else byteOf p i

/-- The most significant bit of `Y[0]` (R141). -/
def topBit (y : Block) : Bool := (byteOf y 0).getLsbD 7

/-- `RoundBit(S, pos)` (R141), for the key and pad `k`, `p`. -/
def roundBit (k p s : Block) (pos : Nat) : Bool := topBit (aes k (buildX s p pos))

/-- The byte `b << (7 − bit)` (R143). -/
def bitByte (b : Bool) (bit : Nat) : Byte := (if b then 1 else 0) <<< (7 - bit)

/-- One forward round at `pos`: `OUT[pos >> 3] <- OUT[pos >> 3] | (b << (7 − (pos & 7)))` (R143), S = A. -/
def forwardRound (k p : Block) (pos : Nat) (c : Scratch) : Scratch :=
  let x := buildX c.aop p pos
  let y := aes k x
  { c with
    pos := BitVec.ofNat 7 pos
    x := x
    y := y
    out := setByte c.out (pos / 8) (byteOf c.out (pos / 8) ||| bitByte (topBit y) (pos % 8)) }

/-- The forward rounds 0 … n − 1, in increasing order (R143). -/
def forwardRounds (k p : Block) : Nat → Scratch → Scratch
  | 0, c => c
  | n + 1, c => forwardRound k p n (forwardRounds k p n c)

/-- Scratch before round 0 of the forward cascade: the operand is latched and `OUT <- zeros(16)`. -/
def forwardStart (a : Block) : Scratch := { Scratch.zero with aop := a }

/-- Scratch after the last round of `Fwd(A, L)`. -/
def forwardScratch (k p a : Block) (l : Nat) : Scratch := forwardRounds k p (8 * l) (forwardStart a)

/-- `Fwd(A, L)` (R143): the L result bytes, followed by zeros. -/
def fwd (k p a : Block) (l : Nat) : Block := keepBytes l (a ^^^ (forwardScratch k p a l).out)

/-- One inverse round at `pos`: `OUT[pos >> 3] <- OUT[pos >> 3] ⊕ (b << (7 − (pos & 7)))` (R171), S = OUT. -/
def inverseRound (k p : Block) (pos : Nat) (c : Scratch) : Scratch :=
  let x := buildX c.out p pos
  let y := aes k x
  { c with
    pos := BitVec.ofNat 7 pos
    x := x
    y := y
    out := setByte c.out (pos / 8) (byteOf c.out (pos / 8) ^^^ bitByte (topBit y) (pos % 8)) }

/-- The inverse rounds 0 … n − 1, strictly in increasing order (R171, R177). -/
def inverseRounds (k p : Block) : Nat → Scratch → Scratch
  | 0, c => c
  | n + 1, c => inverseRound k p n (inverseRounds k p n c)

/-- Scratch before round 0 of the inverse cascade: "`OUT <- A2`, a copy". -/
def inverseStart (a : Block) : Scratch := { Scratch.zero with aop := a, out := a }

/-- Scratch after the last round of `Inv(A2, L)`. -/
def inverseScratch (k p a : Block) (l : Nat) : Scratch := inverseRounds k p (8 * l) (inverseStart a)

/-- `Inv(A2, L)` (R171): the L result bytes, followed by zeros. -/
def inv (k p a : Block) (l : Nat) : Block := keepBytes l (inverseScratch k p a l).out

end Sys2Proof.Machine
end

