-- ==== Sys2Proof/Machine/Transform.lean ====
section
/-! DEFINITION. The address transforms: ANON and ANON_U32 (41_cascade.md R146, R150), DEANON (42_inverse.md R170). -/

namespace Sys2Proof.Machine

/-- `Aop <- AB[0..Leff) ‖ zeros(16 − Leff); RB[0..Leff) <- Fwd(Aop, Leff); RLEN <- Leff` (R146). -/
def anonymise (l : Nat) (s : State) : State :=
  { s with
    scratch := forwardScratch s.k s.p (keepBytes l s.ab) l
    rb := storeBytes s.rb l (fwd s.k s.p (keepBytes l s.ab) l)
    rlen := BitVec.ofNat 5 l }

/-- `Aop <- AB[0..Leff) ‖ zeros(16 − Leff); RB[0..Leff) <- Inv(Aop, Leff); RLEN <- Leff` (R170). -/
def deanonymise (l : Nat) (s : State) : State :=
  { s with
    scratch := inverseScratch s.k s.p (keepBytes l s.ab) l
    rb := storeBytes s.rb l (inv s.k s.p (keepBytes l s.ab) l)
    rlen := BitVec.ofNat 5 l }

/-- ANON (R146). -/
def execAnon (len : Nat) (fam : Family) (s : State) : Host.Outcome State Fault Refusal :=
  if s.keyed = false then .next (fail .disposed s)
  else match resolve len fam with
    | .error e => .next (fail e s)
    | .ok l => .next (anonymise l s)

/-- DEANON (R170). -/
def execDeanon (len : Nat) (fam : Family) (s : State) : Host.Outcome State Fault Refusal :=
  if s.keyed = false then .next (fail .disposed s)
  else match resolve len fam with
    | .error e => .next (fail e s)
    | .ok l => .next (deanonymise l s)

/-- `bytes_be(I) ‖ zeros(12)` (R150). -/
def u32Operand (i : Word) : Block := blockOf fun j => if j < 4 then bytesBe i j else 0

/-- The body of ANON_U32 (R150): `I <- reg[ADDR0]`, and `reg[RES0] <- word_be(A'[0], A'[1], A'[2], A'[3])`. -/
def anonymiseU32 (s : State) : State :=
  let aop := u32Operand (wordOf s.ab 0)
  let a' := fwd s.k s.p aop Config.ipv4L
  { s with
    scratch := forwardScratch s.k s.p aop Config.ipv4L
    rb := setWord s.rb 0 (wordBe (byteOf a' 0) (byteOf a' 1) (byteOf a' 2) (byteOf a' 3))
    rlen := 4 }

/-- ANON_U32 (R150). That the command exists (HAS_U32 = 1) is checked where the word is decoded (30_encoding.md
R104). -/
def execAnonU32 (s : State) : Host.Outcome State Fault Refusal :=
  if s.keyed = false then .next (fail .disposed s) else .next (anonymiseU32 s)

end Sys2Proof.Machine
end

