-- ==== Sys2Proof/Machine/Dispatch.lean ====
section
/-! DEFINITION. One arm for each command (30_encoding.md R104): `exec i` is the BODY of the command i, which the
complete step runs between its own updates (10_state.md R52). -/

namespace Sys2Proof.Machine

def exec (i : Instr) (s : State) : Host.Outcome State Fault Refusal :=
  match i with
  | .setup slen asc => Sys2Proof.Machine.execSetup slen asc s
  | .anon len fam => Sys2Proof.Machine.execAnon len fam s
  | .deanon len fam => Sys2Proof.Machine.execDeanon len fam s
  | .release => Sys2Proof.Machine.execRelease s
  | .anonU32 => Sys2Proof.Machine.execAnonU32 s

end Sys2Proof.Machine
end

