-- ==== Sys2Proof/Machine/Engine.lean ====
section
/-! DEFINITION. The engine agent: the complete step (10_state.md R52) and when it is taken (70_reset_and_hazards.md
R285). -/

namespace Sys2Proof.Machine

/-- `Exec(CUR)` (30_encoding.md R104): decode and run one command; an illegal encoding does nothing but record
IllegalCommand (R107). -/
def runCommand (s : State) : Host.Outcome State Fault Refusal :=
  match decode s.hasU32 s.cur with
  | .ok i => exec i s
  | .error _ => .next (fail .illegalCommand s)

/-- The complete step (R52), one atomic transition. The epilogue runs whether or not the command fails. -/
def completeStep (s : State) : Host.Outcome State Fault Refusal :=
  match runCommand (startCommand s) with
  | .next t => .next (finishCommand t)
  | .fault f => .fault f
  | .refused r => .refused r

/-- The engine moves next: a command is in flight, and either the host operations it lets pass are used up or the host
has nothing left to do (R285's fairness; log 2). -/
def engineDue (s : State) : Bool := s.busy && (s.left == 0 || s.host.isEmpty)

/-- The command word `w` in flight and the engine next: the state an accept step of `w` leaves when LATENCY is 0. -/
def placeCommand (w : Word) (s : State) : State := { s with cur := w, busy := true, left := 0 }

end Sys2Proof.Machine
end

