-- ==== Sys2Proof/Machine/HostAgent.lean ====
section
/-! DEFINITION. The host agent: one operation of its list a step (20_memory.md R75 to R80, 60_exceptions.md R263), and
the assembler notation of 30_encoding.md R109. -/

namespace Sys2Proof.Machine

/-- `MemRead(addr, width)`: a refused access is a fault of the host (R75). -/
def hostRead (addr width : Nat) (s : State) : Host.Outcome State Fault Refusal :=
  match accessOffset s.base addr width with
  | some off => .next (recordRead (regAt off) s)
  | none => .fault (.busError addr width)

/-- `MemWrite(addr, width, v)`: a refused access is a fault of the host (R75). -/
def hostWrite (addr width : Nat) (v : Word) (s : State) : Host.Outcome State Fault Refusal :=
  match accessOffset s.base addr width with
  | some off => .next (writeReg (regAt off) v s)
  | none => .fault (.busError addr width)

/-- One round of `WAIT`: read STATUS, and go on waiting if its bit 0 is 1 (R109). -/
def hostPoll (s : State) : State :=
  if (readReg .status s).getLsbD 0 then { recordRead .status s with host := .wait :: s.host }
  else recordRead .status s

/-- One host operation. -/
def hostOp (op : HostOp) (s : State) : Host.Outcome State Fault Refusal :=
  match op with
  | .read addr width => hostRead addr width s
  | .write addr width v => hostWrite addr width v s
  | .wait => .next (hostPoll s)
  | .reset => .next (resetBlock s)

/-- The host takes its next operation from its list; one host operation fewer is left before a command in flight
completes. -/
def takeOp (rest : List HostOp) (s : State) : State := { s with host := rest, left := s.left - 1 }

/-- The host agent's step. A host with nothing left to do changes nothing (log 8). -/
def hostStep (s : State) : Host.Outcome State Fault Refusal :=
  match s.host with
  | [] => .next s
  | op :: rest => hostOp op (takeOp rest s)

/-- `off(reg)` (R109): the offset of R31. A reserved register has no offset of its own; 0x00C is one. -/
def offsetOf : Reg → Nat
  | .cmd => 0x000
  | .status => 0x004
  | .cap => 0x008
  | .addr j => 0x010 + 4 * j
  | .res j => 0x020 + 4 * j
  | .secret j => 0x040 + 4 * j
  | .reserved => 0x00C

/-- `WR <reg>, <imm32>` (R109). -/
def asmWr (base : Nat) (r : Reg) (v : Word) : HostOp := .write (base + offsetOf r) 4 v

/-- `RD <reg>` (R109). -/
def asmRd (base : Nat) (r : Reg) : HostOp := .read (base + offsetOf r) 4

/-- A command mnemonic of R109: one CMD write of its word. -/
def asmCommand (base : Nat) (i : Instr) : HostOp := asmWr base .cmd (encode i)

/-- `LDADDR <b0 … b15>` (R109), the bytes as one block. -/
def asmLdAddr (base : Nat) (b : Block) : List HostOp :=
  (List.range 4).map fun j => asmWr base (.addr j) (wordOf b j)

/-- `LDSECRET <s0 … s31>` (R109), the bytes as one secret. -/
def asmLdSecret (base : Nat) (st : Secret) : List HostOp :=
  ((List.range 4).map fun j => asmWr base (.secret j) (wordOf (stageKey st) j)) ++
  ((List.range 4).map fun j => asmWr base (.secret (4 + j)) (wordOf (stagePad st) j))

/-- `RDRES` (R109). -/
def asmRdRes (base : Nat) : List HostOp := (List.range 4).map fun j => asmRd base (.res j)

end Sys2Proof.Machine
end

