-- ==== Sys2Proof/Machine/Step.lean ====
section
/-! DEFINITION. One step of the machine: one step of one agent, in one total order (20_memory.md R80). -/

namespace Sys2Proof.Machine

/-- The engine completes the command in flight, or the host does its next operation (10_state.md R30). -/
def step (s : State) : Host.Outcome State Fault Refusal :=
  if engineDue s then completeStep s else hostStep s

/-- `s` with the command word placed where the next step takes its command from: in CUR, in flight, the engine next
(log 9). The bits of `w` above `nbits` are 0. -/
def State.withFetchWord (s : State) (nbits w : Nat) : State :=
  placeCommand (BitVec.ofNat 32 (w % 2 ^ nbits)) s

end Sys2Proof.Machine
end

