-- ==== Sys2Proof/Safety.lean ====
section
/-! DEFINITION. What counts as a good state and a safe step of CPAN-CORE, in the terms the statements use. -/

namespace Sys2Proof.Safety

open Sys2Proof.Machine

/-- `a` and `b` share their first `n` bits, bit 0 the most significant (00_scope.md R9, 41_cascade.md R152). -/
def ShareBits (n : Nat) (a b : Block) : Prop := ∀ i, i < n → a.getMsbD i = b.getMsbD i

/-- `a` is an L-byte value: its bytes from L on are zero. The domain of `Fwd(·, L)` and `Inv(·, L)` (R153). -/
def IsBytes (l : Nat) (a : Block) : Prop := ∀ i, l ≤ i → i < 16 → byteOf a i = 0

/-- `RKi` (45_aes128.md R210, R214), for i in 0 … 10. -/
def roundKey (ks : KeySchedule) (i : Nat) : Block :=
  match i with
  | 0 => ks.rk0
  | 1 => ks.rk1
  | 2 => ks.rk2
  | 3 => ks.rk3
  | 4 => ks.rk4
  | 5 => ks.rk5
  | 6 => ks.rk6
  | 7 => ks.rk7
  | 8 => ks.rk8
  | 9 => ks.rk9
  | _ => ks.rk10

/-- Word `w[i]` of the key schedule (R214), for i in 0 … 43: word i mod 4 of round key i / 4. -/
def scheduleWord (ks : KeySchedule) (i : Nat) : Word := wordOf (roundKey ks (i / 4)) (i % 4)

/-- Rcon[1..10] (R214). -/
def rconByte (i : Nat) : Byte := [0x01, 0x02, 0x04, 0x08, 0x10, 0x20, 0x40, 0x80, 0x1b, 0x36].getD (i - 1) 0

/-- The first n terms of the product of two bytes in GF(2^8) (45_aes128.md R212): a times bit i of b is `xtime`
applied i times to a, and addition is XOR. -/
def fieldTerms : Nat → Byte → Byte → Byte
  | 0, _, _ => 0
  | n + 1, a, b => (if b.getLsbD 0 then a else 0) ^^^ fieldTerms n (xtime a) (b >>> 1)

/-- The product in GF(2^8) (R212). -/
def fieldMul (a b : Byte) : Byte := fieldTerms 8 a b

/-- The affine map of R213: `b ⊕ rotl(b,1) ⊕ rotl(b,2) ⊕ rotl(b,3) ⊕ rotl(b,4) ⊕ 0x63`. -/
def affineMap (b : Byte) : Byte :=
  b ^^^ b.rotateLeft 1 ^^^ b.rotateLeft 2 ^^^ b.rotateLeft 3 ^^^ b.rotateLeft 4 ^^^ 0x63

/-- The registers whose writes are ignored with OVR set while BUSY = 1 (10_state.md R45). -/
def guarded : Reg → Bool
  | .cmd => true
  | .addr _ => true
  | .secret _ => true
  | .status => false
  | .cap => false
  | .res _ => false
  | .reserved => false

/-- An access the window accepts (20_memory.md R75): one 32-bit word at a word-aligned offset `off`. -/
def LegalAccess (base addr width off : Nat) : Prop :=
  width = 4 ∧ addr = base + off ∧ off < 0x100 ∧ off % 4 = 0

/-- The offsets of CMD, ADDR0–3 and SECRET0–7 (10_state.md R31), whose writes R45 guards. -/
def GuardedOffset (off : Nat) : Prop :=
  off = 0x000 ∨ (∃ j, j < 4 ∧ off = 0x010 + 4 * j) ∨ (∃ j, j < 8 ∧ off = 0x040 + 4 * j)

/-- The reserved offsets (20_memory.md R74). -/
def ReservedOffset (off : Nat) : Prop := off = 0x00C ∨ (0x030 ≤ off ∧ off ≤ 0x03C) ∨ (0x060 ≤ off ∧ off ≤ 0x0FC)

/-- The illegal encodings, as 30_encoding.md R107 lists them, by arithmetic on the word. -/
abbrev IllegalWord (hasU32 : Bool) (w : Word) : Prop :=
  w.toNat % 16 = 0 ∨ 6 ≤ w.toNat % 16 ∨ (w.toNat % 16 = 5 ∧ hasU32 = false) ∨
  (w.toNat % 16 = 1 ∧ w.toNat / 2 ^ 11 ≠ 0) ∨
  ((w.toNat % 16 = 2 ∨ w.toNat % 16 = 3) ∧ w.toNat / 2 ^ 12 ≠ 0) ∨
  ((w.toNat % 16 = 4 ∨ w.toNat % 16 = 5) ∧ w.toNat / 2 ^ 4 ≠ 0)

/-- The block alone: the model's own fields of State (log 1, log 2, log 5, log 6) blanked. -/
def blockPart (s : State) : State := { s with host := [], seen := [], left := 0, draws := 0 }

/-- It is the host's turn, and `op` is its next operation. -/
def HostTurn (s : State) (op : HostOp) (rest : List HostOp) : Prop := engineDue s = false ∧ s.host = op :: rest

/-- What holds in every state after the first reset: the invariants 10_state.md states, and what makes STATUS and RB
agree. -/
structure StateInv (s : State) : Prop where
  /-- R43: `KEYED = 0` implies `K = 0`, `P = 0` and `KS = 0` -/
  unkeyed : s.keyed = false → s.k = 0 ∧ s.p = 0 ∧ s.ks = KeySchedule.zero
  /-- R42: when KEYED = 1, `KS = KeyExpansion(K)` -/
  schedule : s.keyed = true → s.ks = keyExpansion s.k
  /-- R44: `BUSY = 0` means the engine is idle, and then `CUR = 0` -/
  idleCur : s.busy = false → s.cur = 0
  /-- R47: scratch is zero at every step at which BUSY = 0 -/
  idleScratch : s.busy = false → s.scratch = Scratch.zero
  /-- R240, R245: ERR takes only the codes 0, 1, 2, 3, 4 and 6 -/
  errCodes : s.err = 0 ∨ s.err = 1 ∨ s.err = 2 ∨ s.err = 3 ∨ s.err = 4 ∨ s.err = 6
  /-- R35: RLEN never exceeds 16 -/
  rlenLe : s.rlen.toNat ≤ 16
  /-- R38: bytes `RB[RLEN … 15]` read 0 -/
  tailZero : IsBytes s.rlen.toNat s.rb
  /-- R35: RLEN is 0 after a failed command -/
  errNoResult : s.err ≠ 0 → s.rlen = 0
  /-- R8: BASE is aligned to 0x100 -/
  baseAligned : s.base % 0x100 = 0

/-- The state as a host may know it: every secret-bearing field blanked (10_state.md R56). -/
def publicView (s : State) : State :=
  { s with k := 0, p := 0, ks := KeySchedule.zero, stage := 0, scratch := Scratch.zero }

/-- Two outcomes a host cannot tell apart. -/
def SameToHost : Host.Outcome State Fault Refusal → Host.Outcome State Fault Refusal → Prop
  | .next s, .next t => publicView s = publicView t
  | .fault f, .fault g => f = g
  | .refused r, .refused q => r = q
  | .next _, .fault _ => False
  | .next _, .refused _ => False
  | .fault _, .next _ => False
  | .fault _, .refused _ => False
  | .refused _, .next _ => False
  | .refused _, .fault _ => False

end Sys2Proof.Safety
end

