-- ==== Sys2Proof/Certificates/Slice0/Obligations.lean ====
section
/-! DEFINITION. The statements about CPAN-CORE, from the numbered rules of spec/. Each docstring names the rules.
`HostTurn s op rest` says that it is the host's turn and `op` is its next operation; `engineDue s` that the engine
completes the command in flight; `blockPart` blanks the model's own fields (log 1, log 2, log 5, log 6), so that a
statement about it is a statement about the block. Statements hold for every value of the free values LATENCY and
busyWord. -/

open Sys2Proof Sys2Proof.Machine Sys2Proof.Safety

/-! Encoding. -/

/-- R101, R104, R109: every command the instance has, with every operand its fields admit, is read back whole. -/
def Obligations.EncodeThenDecodeReturnsCommand : Prop :=
  ∀ (hasU32 : Bool) (i : Instr), i.wf = true → i.present hasU32 = true → decode hasU32 (encode i) = .ok i

/-- R100, R101, R107: no two words decode to one command, and no accepted word has a bit the command does not show. -/
def Obligations.DecodedCommandEncodesToItsWord : Prop :=
  ∀ (hasU32 : Bool) (w : Word) (i : Instr), decode hasU32 w = .ok i →
    i.wf = true ∧ i.present hasU32 = true ∧ encode i = w

/-- R102: "a word `w` selects the row iff `(w & mask) = match`", row by row, and the reserved opcodes select none. -/
def Obligations.WordSelectsItsOpcodeRow : Prop :=
  ∀ (hasU32 : Bool) (w : Word),
    ((∃ slen asc, decode hasU32 w = .ok (.setup slen asc)) ↔ w &&& 0xFFFFF80F = 0x00000001) ∧
    ((∃ len fam, decode hasU32 w = .ok (.anon len fam)) ↔ w &&& 0xFFFFF00F = 0x00000002) ∧
    ((∃ len fam, decode hasU32 w = .ok (.deanon len fam)) ↔ w &&& 0xFFFFF00F = 0x00000003) ∧
    (decode hasU32 w = .ok .release ↔ w &&& 0xFFFFFFFF = 0x00000004) ∧
    (decode hasU32 w = .ok .anonU32 ↔ hasU32 = true ∧ w &&& 0xFFFFFFFF = 0x00000005) ∧
    (w &&& 0xF = 0 ∨ 6 ≤ (w &&& 0xF).toNat → decode hasU32 w = .error .reservedOpcode)

/-- R107: the decoder rejects exactly the listed words. -/
def Obligations.DecoderRejectsExactlyIllegalWords : Prop :=
  ∀ (hasU32 : Bool) (w : Word), (∃ r, decode hasU32 w = .error r) ↔ IllegalWord hasU32 w

/-- R110: the encoding examples, in the table's order. -/
def Obligations.EncodingExamplesDecode : Prop :=
  decode true 0x00000201 = .ok (.setup 32 false) ∧ decode true 0x00000601 = .ok (.setup 32 true) ∧
  decode true 0x000001F1 = .ok (.setup 31 false) ∧ decode true 0x00000042 = .ok (.anon 4 .raw) ∧
  decode true 0x00000242 = .ok (.anon 4 .ipv4) ∧ decode true 0x00000062 = .ok (.anon 6 .raw) ∧
  decode true 0x00000502 = .ok (.anon 16 .ipv6) ∧ decode true 0x000004F2 = .ok (.anon 15 .ipv6) ∧
  decode true 0x00000A42 = .ok (.anon 4 (.other 5)) ∧ decode true 0x00000002 = .ok (.anon 0 .raw) ∧
  decode true 0x00000112 = .ok (.anon 17 .raw) ∧ decode true 0x00000043 = .ok (.deanon 4 .raw) ∧
  decode true 0x00000503 = .ok (.deanon 16 .ipv6) ∧ decode true 0x00000004 = .ok .release ∧
  decode true 0x00000005 = .ok .anonU32 ∧ decode true 0x80000042 = .error .reservedBits

/-! The engine's step. -/

/-- R52, R104: a step of the engine is the decoded command's body, between `ERR <- 0; RLEN <- 0; RB <- zeros(16)` and
the common epilogue; a stop of the body would be the step's own. `left` is the model's own counter (log 2). -/
def Obligations.StepRunsDecodedCommand : Prop :=
  ∀ (s : State) (i : Instr), engineDue s = true → decode s.hasU32 s.cur = .ok i →
    step s = match exec i { s with err := 0, rlen := 0, rb := 0 } with
      | .next t => .next { t with scratch := ⟨0, 0, 0, 0, 0⟩, cur := 0, busy := false, left := 0 }
      | .fault f => .fault f
      | .refused r => .refused r

/-- R107, R246: an illegal word records IllegalCommand and does nothing else, so a bad SETUP word does not release. -/
def Obligations.IllegalCommandOnlyRecordsItsCode : Prop :=
  ∀ s : State, engineDue s = true → IllegalWord s.hasU32 s.cur →
    ∃ t, step s = .next t ∧ blockPart t = { blockPart s with
      err := 6, rlen := 0, rb := 0, scratch := ⟨0, 0, 0, 0, 0⟩, cur := 0, busy := false }

/-- R52, R37, R248: whatever the command and its outcome, the complete step ends it; it never touches AB, OVR or the
straps, and takes nothing from the host. -/
def Obligations.EveryCompleteStepEndsItsCommand : Prop :=
  ∀ s : State, engineDue s = true → ∃ t, step s = .next t ∧
    t.busy = false ∧ t.cur = 0 ∧ t.scratch = ⟨0, 0, 0, 0, 0⟩ ∧ t.ab = s.ab ∧ t.ovr = s.ovr ∧
    t.base = s.base ∧ t.hasU32 = s.hasU32 ∧ t.host = s.host ∧ t.seen = s.seen ∧ t.draws = s.draws

/-- R252: the code that is recorded is the first that applies, in the rule's order; the fields are read off the word
by arithmetic (R101, R103). -/
def Obligations.FirstErrorInPrecedenceIsRecorded : Prop :=
  ∀ s : State, engineDue s = true → ∃ t, step s = .next t ∧ t.err =
    (if IllegalWord s.hasU32 s.cur then 6
     else if s.cur.toNat % 16 = 1 then
       (if s.cur.toNat / 2 ^ 4 % 64 < 32 then 1
        else if s.cur.toNat / 2 ^ 10 % 2 = 1 ∧
          ((List.range 32).any fun i => decide (0x80 ≤ (stageByte s.stage i).toNat)) = true then 1 else 0)
     else if s.cur.toNat % 16 = 4 then 0
     else if s.keyed = false then 4
     else if s.cur.toNat % 16 = 5 then 0
     else if 3 ≤ s.cur.toNat / 2 ^ 9 % 8 then 3
     else if s.cur.toNat / 2 ^ 9 % 8 = 0 ∧ s.cur.toNat / 2 ^ 4 % 32 = 0 then 2
     else if s.cur.toNat / 2 ^ 9 % 8 = 1 ∧ s.cur.toNat / 2 ^ 4 % 32 < 4 then 2
     else if s.cur.toNat / 2 ^ 9 % 8 = 2 ∧ s.cur.toNat / 2 ^ 4 % 32 < 16 then 2
     else 0)

/-- R247: the codes each command word can leave. -/
def Obligations.ErrorCodesOfEachCommand : Prop :=
  ∀ s t : State, engineDue s = true → step s = .next t →
    (s.cur.toNat % 16 = 1 → t.err = 0 ∨ t.err = 1 ∨ t.err = 6) ∧
    (s.cur.toNat % 16 = 2 → t.err = 0 ∨ t.err = 2 ∨ t.err = 3 ∨ t.err = 4 ∨ t.err = 6) ∧
    (s.cur.toNat % 16 = 3 → t.err = 0 ∨ t.err = 2 ∨ t.err = 3 ∨ t.err = 4 ∨ t.err = 6) ∧
    (s.cur.toNat % 16 = 4 → t.err = 0 ∨ t.err = 6) ∧
    (s.cur.toNat % 16 = 5 → t.err = 0 ∨ t.err = 4 ∨ t.err = 6) ∧
    (s.cur.toNat % 16 = 0 ∨ 6 ≤ s.cur.toNat % 16 → t.err = 6)

/-! The host's accesses. -/

/-- R50: a CMD write while BUSY = 0 latches the word, clears OVR and starts the command, and changes nothing else; the
same write while BUSY = 1 only sets OVR; and until the complete step no host operation but reset changes ERR, RLEN, RB,
KEYED, K, P, STAGE or AB. -/
def Obligations.AcceptStepOnlyLatchesTheCommand : Prop :=
  (∀ (s : State) (v : Word) (rest : List HostOp), HostTurn s (.write (s.base + 0x000) 4 v) rest → s.busy = false →
    ∃ t, step s = .next t ∧ blockPart t = { blockPart s with cur := v, ovr := false, busy := true }) ∧
  (∀ (s : State) (v : Word) (rest : List HostOp), HostTurn s (.write (s.base + 0x000) 4 v) rest → s.busy = true →
    ∃ t, step s = .next t ∧ blockPart t = { blockPart s with ovr := true }) ∧
  (∀ (s t : State) (op : HostOp) (rest : List HostOp), HostTurn s op rest → s.busy = true → op ≠ .reset →
    step s = .next t → t.err = s.err ∧ t.rlen = s.rlen ∧ t.rb = s.rb ∧ t.keyed = s.keyed ∧ t.k = s.k ∧ t.p = s.p ∧
      t.ks = s.ks ∧ t.stage = s.stage ∧ t.ab = s.ab ∧ t.cur = s.cur ∧ t.busy = true)

/-- R45: what sets OVR, what a guarded write does otherwise, and what clears OVR. -/
def Obligations.WritesWhileBusySetOvrAndNothingElse : Prop :=
  (∀ (s : State) (off : Nat) (v : Word) (rest : List HostOp), HostTurn s (.write (s.base + off) 4 v) rest →
    s.busy = true → GuardedOffset off →
    ∃ t, step s = .next t ∧ blockPart t = { blockPart s with ovr := true }) ∧
  (∀ (s : State) (off : Nat) (v : Word) (rest : List HostOp), HostTurn s (.write (s.base + off) 4 v) rest →
    s.busy = true → off < 0x100 → off % 4 = 0 → ¬ GuardedOffset off →
    ∃ t, step s = .next t ∧ blockPart t = blockPart s) ∧
  (∀ s t : State, step s = .next t → s.ovr = false → t.ovr = true →
    s.busy = true ∧ ∃ off v rest, GuardedOffset off ∧ s.host = .write (s.base + off) 4 v :: rest) ∧
  (∀ s t : State, step s = .next t → s.ovr = true → t.ovr = false →
    (∃ rest, s.host = .reset :: rest) ∨
    (s.busy = false ∧ ∃ v rest, s.host = .write (s.base + 0x000) 4 v :: rest))

/-- R37, R71: an ADDRn word reads back as last written, and a write to one word leaves the others. -/
def Obligations.AddressWordReadsBackAsLastWritten : Prop :=
  ∀ (s : State) (i j : Nat) (v : Word) (rest : List HostOp), i < 4 → j < 4 → s.busy = false →
    s.host = .write (s.base + (0x010 + 4 * i)) 4 v :: .read (s.base + (0x010 + 4 * j)) 4 :: rest →
    ∃ t u, step s = .next t ∧ step t = .next u ∧ blockPart u = { blockPart s with ab := u.ab } ∧
      u.seen = (if j = i then v else wordOf s.ab j) :: s.seen ∧
      ∀ m, m < 16 → byteOf u.ab m = if m / 4 = i then bytesBe v (m % 4) else byteOf s.ab m

/-- R71: register j of a buffer holds bytes 4j … 4j+3, byte 4j in bits [31:24]: ADDRj and RESj as they read, SECRETj
as it is written. -/
def Obligations.BuffersSitInBigEndianLanes : Prop :=
  ∀ (s : State) (j : Nat) (rest : List HostOp), s.busy = false →
    (j < 4 → s.host = .read (s.base + (0x010 + 4 * j)) 4 :: rest →
      ∃ t v, step s = .next t ∧ t.seen = v :: s.seen ∧
        v.toNat = (byteOf s.ab (4 * j)).toNat * 2 ^ 24 + (byteOf s.ab (4 * j + 1)).toNat * 2 ^ 16 +
          (byteOf s.ab (4 * j + 2)).toNat * 2 ^ 8 + (byteOf s.ab (4 * j + 3)).toNat) ∧
    (j < 4 → s.host = .read (s.base + (0x020 + 4 * j)) 4 :: rest →
      ∃ t v, step s = .next t ∧ t.seen = v :: s.seen ∧
        v.toNat = (byteOf s.rb (4 * j)).toNat * 2 ^ 24 + (byteOf s.rb (4 * j + 1)).toNat * 2 ^ 16 +
          (byteOf s.rb (4 * j + 2)).toNat * 2 ^ 8 + (byteOf s.rb (4 * j + 3)).toNat) ∧
    (∀ v : Word, j < 8 → s.host = .write (s.base + (0x040 + 4 * j)) 4 v :: rest →
      ∃ t, step s = .next t ∧ blockPart t = { blockPart s with stage := t.stage } ∧
        v.toNat = (stageByte t.stage (4 * j)).toNat * 2 ^ 24 + (stageByte t.stage (4 * j + 1)).toNat * 2 ^ 16 +
          (stageByte t.stage (4 * j + 2)).toNat * 2 ^ 8 + (stageByte t.stage (4 * j + 3)).toNat ∧
        ∀ m, m < 32 → m / 4 ≠ j → stageByte t.stage m = stageByte s.stage m)

/-- R32, R39: CMD and SECRETn read 0, whether or not a command is in flight. -/
def Obligations.WriteOnlyRegistersReadZero : Prop :=
  ∀ (s : State) (off : Nat) (rest : List HostOp), (off = 0x000 ∨ ∃ j, j < 8 ∧ off = 0x040 + 4 * j) →
    HostTurn s (.read (s.base + off) 4) rest →
    ∃ t, step s = .next t ∧ blockPart t = blockPart s ∧ t.seen = 0 :: s.seen

/-- R77: a read of any legal offset gives one word and changes nothing of the block. -/
def Obligations.ReadsHaveNoSideEffect : Prop :=
  ∀ (s : State) (off : Nat) (rest : List HostOp), off < 0x100 → off % 4 = 0 →
    HostTurn s (.read (s.base + off) 4) rest →
    ∃ t v, step s = .next t ∧ blockPart t = blockPart s ∧ t.seen = v :: s.seen ∧ t.host = rest

/-- R75: an access is refused exactly when it is not one word at a word-aligned offset of the window; a refused access
is a fault (no next state), an accepted one a next state. -/
def Obligations.OnlyAlignedWordsOfTheWindowAreAccepted : Prop :=
  ∀ (s : State) (addr width : Nat) (v : Word) (op : HostOp) (rest : List HostOp),
    op = .read addr width ∨ op = .write addr width v → HostTurn s op rest →
    ((∃ off, LegalAccess s.base addr width off) → ∃ t, step s = .next t) ∧
    ((¬ ∃ off, LegalAccess s.base addr width off) → step s = .fault (.busError addr width))

/-- R74: reserved offsets read 0 and ignore writes, and such a write never sets OVR. -/
def Obligations.ReservedOffsetsReadZeroAndIgnoreWrites : Prop :=
  ∀ (s : State) (off : Nat) (v : Word) (rest : List HostOp), ReservedOffset off → off % 4 = 0 →
    (HostTurn s (.read (s.base + off) 4) rest →
      ∃ t, step s = .next t ∧ blockPart t = blockPart s ∧ t.seen = 0 :: s.seen) ∧
    (HostTurn s (.write (s.base + off) 4 v) rest →
      ∃ t, step s = .next t ∧ blockPart t = blockPart s ∧ t.seen = s.seen)

/-- R33: STATUS while the block is idle, field by field; a write to it is ignored. -/
def Obligations.IdleStatusShowsItsFields : Prop :=
  ∀ (s : State) (rest : List HostOp),
    (HostTurn s (.read (s.base + 0x004) 4) rest → s.busy = false →
      ∃ t v, step s = .next t ∧ t.seen = v :: s.seen ∧ v.getLsbD 0 = false ∧ v.getLsbD 1 = s.keyed ∧
        (v.getLsbD 2 = true ↔
          s.k = 0 ∧ s.p = 0 ∧ s.ks = KeySchedule.zero ∧ s.stage = 0 ∧ s.scratch = Scratch.zero) ∧
        v.getLsbD 3 = s.ovr ∧ v.extractLsb' 4 4 = s.err ∧ v.extractLsb' 8 5 = s.rlen ∧ v.extractLsb' 13 19 = 0) ∧
    (∀ v : Word, HostTurn s (.write (s.base + 0x004) 4 v) rest →
      ∃ t, step s = .next t ∧ blockPart t = blockPart s)

/-- R53: what reads do fix while BUSY = 1: BUSY, OVR and the reserved bits of STATUS, ADDRn, CAP, and zero for CMD,
SECRETn and reserved offsets. The other fields are free values. -/
def Obligations.ReadsWhileBusyFixTheseFields : Prop :=
  ∀ (s : State) (rest : List HostOp), s.busy = true →
    (HostTurn s (.read (s.base + 0x004) 4) rest →
      ∃ t v, step s = .next t ∧ t.seen = v :: s.seen ∧ v.getLsbD 0 = true ∧ v.getLsbD 3 = s.ovr ∧
        v.extractLsb' 13 19 = 0) ∧
    (∀ j, j < 4 → HostTurn s (.read (s.base + (0x010 + 4 * j)) 4) rest →
      ∃ t, step s = .next t ∧ t.seen = wordOf s.ab j :: s.seen) ∧
    (HostTurn s (.read (s.base + 0x008) 4) rest →
      ∃ t, step s = .next t ∧ t.seen = (if s.hasU32 then 0x00201001 else 0x00201000) :: s.seen) ∧
    (∀ off, off = 0x000 ∨ (∃ j, j < 8 ∧ off = 0x040 + 4 * j) ∨ (ReservedOffset off ∧ off % 4 = 0) →
      HostTurn s (.read (s.base + off) 4) rest → ∃ t, step s = .next t ∧ t.seen = 0 :: s.seen)

/-- R36: CAP reads its constant, and writes to it are ignored. -/
def Obligations.CapReadsItsConstant : Prop :=
  ∀ (s : State) (rest : List HostOp),
    (HostTurn s (.read (s.base + 0x008) 4) rest → ∃ t, step s = .next t ∧
      t.seen = (if s.hasU32 then 0x00201001 else 0x00201000) :: s.seen) ∧
    (∀ v : Word, HostTurn s (.write (s.base + 0x008) 4 v) rest →
      ∃ t, step s = .next t ∧ blockPart t = blockPart s)

/-- R33, R36, R38, R77: a write to STATUS, to CAP or to a RESj is ignored, whatever BUSY is. -/
def Obligations.WritesToReadOnlyRegistersAreIgnored : Prop :=
  ∀ (s : State) (off : Nat) (v : Word) (rest : List HostOp),
    off = 0x004 ∨ off = 0x008 ∨ (∃ j, j < 4 ∧ off = 0x020 + 4 * j) →
    HostTurn s (.write (s.base + off) 4 v) rest →
    ∃ t, step s = .next t ∧ blockPart t = blockPart s ∧ t.seen = s.seen ∧ t.host = rest

/-- R280, R282: reset gives every piece of state its reset value, whatever the state and whatever is in flight, and
STATUS then reads 0x00000004. The straps BASE and HAS_U32 are not state of the block (log 3, log 4). -/
def Obligations.ResetGivesEveryRegisterItsResetValue : Prop :=
  ∀ (s : State) (rest : List HostOp), HostTurn s .reset rest → ∃ t, step s = .next t ∧
    t.busy = false ∧ t.cur = 0 ∧ t.ovr = false ∧ t.err = 0 ∧ t.rlen = 0 ∧ t.keyed = false ∧ t.k = 0 ∧ t.p = 0 ∧
    t.ks = ⟨0, 0, 0, 0, 0, 0, 0, 0, 0, 0, 0⟩ ∧ t.stage = 0 ∧ t.ab = 0 ∧ t.rb = 0 ∧ t.scratch = ⟨0, 0, 0, 0, 0⟩ ∧
    t.hasU32 = s.hasU32 ∧ ∀ free, statusWord free t = 0x00000004

/-- R54: the reset values, STATUS after reset, and CAP's constant. -/
def Obligations.StateRightAfterReset : Prop :=
  State.reset.busy = false ∧ State.reset.cur = 0 ∧ State.reset.keyed = false ∧ State.reset.ovr = false ∧
  State.reset.err = 0 ∧ State.reset.rlen = 0 ∧ zeroed State.reset = true ∧ State.reset.ab = 0 ∧
  State.reset.rb = 0 ∧ State.reset.stage = 0 ∧ State.reset.k = 0 ∧ State.reset.p = 0 ∧
  State.reset.ks = ⟨0, 0, 0, 0, 0, 0, 0, 0, 0, 0, 0⟩ ∧ State.reset.scratch = ⟨0, 0, 0, 0, 0⟩ ∧
  statusWord 0 State.reset = 0x00000004 ∧
  ∀ hasU32, capWord hasU32 = if hasU32 then 0x00201001 else 0x00201000

/-! SETUP and RELEASE. -/

/-- R121, R123, R126, R127: a SETUP that passes its checks runs to a next state: K is the first half of the staged
secret, KS its schedule, P the encryption of the second half, KEYED is set and STAGE zeroed; nothing else changes, and
every declared length from 32 on does the same. -/
def Obligations.SetupLoadsKeyScheduleAndPad : Prop :=
  ∀ (s : State) (slen : Nat) (asc : Bool), 32 ≤ slen →
    (asc = true → ∀ i, i < 32 → (stageByte s.stage i).toNat < 0x80) →
    ∃ t r, exec (.setup slen asc) s = .next t ∧
      t = { s with k := t.k, ks := keyExpansion t.k, p := aes t.k r, keyed := true, stage := 0 } ∧
      (∀ i, i < 16 → byteOf t.k i = stageByte s.stage i) ∧
      (∀ i, i < 16 → byteOf r i = stageByte s.stage (16 + i))

/-- R241, R122, R127, R130: the two causes of InvalidKey, and what a failed SETUP leaves: un-keyed, everything secret
zero, nothing else changed; and nothing else raises it. -/
def Obligations.FailedSetupUnkeysAndZeroises : Prop :=
  (∀ (s : State) (slen : Nat) (asc : Bool),
    slen < 32 ∨ (asc = true ∧ ∃ i, i < 32 ∧ 0x80 ≤ (stageByte s.stage i).toNat) →
    exec (.setup slen asc) s = .next { s with
      k := 0, p := 0, ks := ⟨0, 0, 0, 0, 0, 0, 0, 0, 0, 0, 0⟩, keyed := false, stage := 0, err := 1 }) ∧
  (∀ (s t : State) (i : Instr), s.err ≠ 1 → exec i s = .next t → t.err = 1 → ∃ slen asc, i = .setup slen asc ∧
    (slen < 32 ∨ (asc = true ∧ ∃ m, m < 32 ∧ 0x80 ≤ (stageByte s.stage m).toNat)))

/-- R190, R191, R192: RELEASE runs to a next state from every state, with every secret zero and nothing else changed
(AB and OVR stay). -/
def Obligations.ReleaseZeroisesEverySecret : Prop :=
  ∀ s : State, exec .release s = .next { s with
    k := 0, p := 0, ks := ⟨0, 0, 0, 0, 0, 0, 0, 0, 0, 0, 0⟩, stage := 0, keyed := false }

/-- R192: a second RELEASE equals one. -/
def Obligations.SecondReleaseChangesNothing : Prop :=
  ∀ s t : State, exec .release s = .next t → exec .release t = .next t

/-- R197: after a complete step of RELEASE, ZEROED reads 1, and ZEROED reads 0 of a state that kept a secret. -/
def Obligations.ZeroedReportsZeroStateAfterRelease : Prop :=
  (∀ s : State, engineDue s = true → decode s.hasU32 s.cur = .ok .release → ∃ t, step s = .next t ∧
    (∀ free, (statusWord free t).getLsbD 2 = true) ∧
    ∀ free, statusWord free t = if s.ovr then 0x0000000C else 0x00000004) ∧
  (∀ (u : State) (free : Word), u.busy = false → u.k ≠ 0 ∨ u.p ≠ 0 ∨ u.ks ≠ KeySchedule.zero ∨ u.stage ≠ 0 →
    (statusWord free u).getLsbD 2 = false)

/-! The transforms as commands. -/

/-- R146, R143: a keyed ANON whose operands resolve runs to a next state: each of the 8·Leff result bits is the address
bit XOR the round bit, the rest of RB stays, RLEN is Leff, and nothing else changes but scratch. -/
def Obligations.AnonXorsTheRoundBits : Prop :=
  ∀ (s : State) (len : Nat) (fam : Family) (l : Nat), s.keyed = true → resolve len fam = .ok l →
    ∃ t, exec (.anon len fam) s = .next t ∧
      t = { s with rb := t.rb, rlen := BitVec.ofNat 5 l, scratch := t.scratch } ∧
      ∀ i, i < 128 → t.rb.getMsbD i =
        if i < 8 * l then (s.ab.getMsbD i ^^ roundBit s.k s.p s.ab i) else s.rb.getMsbD i

/-- R170, R171: a keyed DEANON whose operands resolve runs to a next state: the result is the address whose round bits
give back the anonymised bits, the rest of RB stays, RLEN is Leff, and nothing else changes but scratch. -/
def Obligations.DeanonSolvesForTheAddress : Prop :=
  ∀ (s : State) (len : Nat) (fam : Family) (l : Nat), s.keyed = true → resolve len fam = .ok l →
    ∃ t, exec (.deanon len fam) s = .next t ∧
      t = { s with rb := t.rb, rlen := BitVec.ofNat 5 l, scratch := t.scratch } ∧
      (∀ i, i < 8 * l → (t.rb.getMsbD i ^^ roundBit s.k s.p t.rb i) = s.ab.getMsbD i) ∧
      ∀ i, 8 * l ≤ i → i < 128 → t.rb.getMsbD i = s.rb.getMsbD i

/-- R150: a keyed ANON_U32 runs to a next state, the one `ANON len=4, fam=raw` gives: RES0 is ADDR0 XOR the first 32
round bits, the other RES words stay, RLEN is 4, and nothing else changes but scratch. -/
def Obligations.AnonU32EqualsFourByteAnon : Prop :=
  ∀ s : State, s.keyed = true →
    ∃ t, exec .anonU32 s = .next t ∧ exec (.anon 4 .raw) s = .next t ∧
      t = { s with rb := t.rb, rlen := 4, scratch := t.scratch } ∧
      (∀ i, i < 32 → (wordOf t.rb 0).getMsbD i = ((wordOf s.ab 0).getMsbD i ^^ roundBit s.k s.p s.ab i)) ∧
      ∀ j, 1 ≤ j → j < 4 → wordOf t.rb j = wordOf s.rb j

/-- R244: with KEYED = 0 every transform records Disposed and does nothing else, whatever its operands; and nothing
else raises it, so SETUP and RELEASE never do. -/
def Obligations.TransformsAreDisposedWhenUnkeyed : Prop :=
  (∀ (s : State) (len : Nat) (fam : Family), s.keyed = false →
    exec (.anon len fam) s = .next { s with err := 4 } ∧ exec (.deanon len fam) s = .next { s with err := 4 } ∧
    exec .anonU32 s = .next { s with err := 4 }) ∧
  (∀ (s t : State) (i : Instr), s.err ≠ 4 → exec i s = .next t → t.err = 4 → s.keyed = false ∧
    ((∃ len fam, i = .anon len fam) ∨ (∃ len fam, i = .deanon len fam) ∨ i = .anonU32))

/-- R243: a keyed ANON or DEANON with a family code 3 … 7 records InvalidFamily and does nothing else, whatever its
length; those codes are what FAM ≥ 3 decodes to; and nothing else raises it, so FAM = 0 never does. -/
def Obligations.OtherFamiliesAreInvalid : Prop :=
  (∀ (s : State) (len code : Nat), s.keyed = true → 3 ≤ code → code ≤ 7 →
    exec (.anon len (.other code)) s = .next { s with err := 3 } ∧
    exec (.deanon len (.other code)) s = .next { s with err := 3 }) ∧
  (∀ w : Word, (∃ code, famOf w = .other code ∧ 3 ≤ code ∧ code ≤ 7) ↔ 3 ≤ w.toNat / 2 ^ 9 % 8) ∧
  (∀ (s t : State) (i : Instr), i.wf = true → s.err ≠ 3 → exec i s = .next t → t.err = 3 → s.keyed = true ∧
    ∃ len code, (i = .anon len (.other code) ∨ i = .deanon len (.other code)) ∧ 3 ≤ code ∧ code ≤ 7)

/-- R242: the three cases of InvalidInput, and that nothing else changes; and nothing else raises it, so ANON_U32 never
does. -/
def Obligations.TooShortAddressesAreInvalidInput : Prop :=
  (∀ (s : State) (len : Nat) (fam : Family), s.keyed = true →
    (fam = .raw ∧ len = 0) ∨ (fam = .ipv4 ∧ len < 4) ∨ (fam = .ipv6 ∧ len < 16) →
    exec (.anon len fam) s = .next { s with err := 2 } ∧ exec (.deanon len fam) s = .next { s with err := 2 }) ∧
  (∀ (s t : State) (i : Instr), s.err ≠ 2 → exec i s = .next t → t.err = 2 → s.keyed = true ∧
    ∃ len fam, (i = .anon len fam ∨ i = .deanon len fam) ∧
      ((fam = .raw ∧ len = 0) ∨ (fam = .ipv4 ∧ len < 4) ∨ (fam = .ipv6 ∧ len < 16)))

/-- R148, R149, R175: a family-tagged form is the raw form on the family's length, and over-long inputs are truncated;
both transforms, in every state. -/
def Obligations.TaggedAndOverlongFormsEqualRawForms : Prop :=
  ∀ (s : State) (len : Nat),
    (4 ≤ len → exec (.anon len .ipv4) s = exec (.anon 4 .raw) s ∧ exec (.deanon len .ipv4) s = exec (.deanon 4 .raw) s) ∧
    (16 ≤ len → exec (.anon len .ipv6) s = exec (.anon 16 .raw) s ∧
      exec (.deanon len .ipv6) s = exec (.deanon 16 .raw) s) ∧
    (16 ≤ len → exec (.anon len .raw) s = exec (.anon 16 .raw) s ∧ exec (.deanon len .raw) s = exec (.deanon 16 .raw) s)

/-- R37, R146 (corner cases), U16: the bytes of AB at or after the effective length have no effect on a transform. -/
def Obligations.BytesBeyondTheLengthHaveNoEffect : Prop :=
  ∀ (s : State) (other : Block) (len : Nat) (fam : Family) (l : Nat), s.keyed = true → resolve len fam = .ok l →
    ShareBits (8 * l) s.ab other →
    (∃ t, exec (.anon len fam) s = .next t ∧
      exec (.anon len fam) { s with ab := other } = .next { t with ab := other }) ∧
    (∃ t, exec (.deanon len fam) s = .next t ∧
      exec (.deanon len fam) { s with ab := other } = .next { t with ab := other })

/-- R173 on the block: writing an ANON's result back to AB and running DEANON with the same operands gives the first
Leff bytes of the address back, and the other way round. -/
def Obligations.DeanonAndAnonUndoEachOther : Prop :=
  ∀ (s : State) (len : Nat) (fam : Family) (l : Nat), s.keyed = true → resolve len fam = .ok l →
    (∃ t u, exec (.anon len fam) s = .next t ∧ exec (.deanon len fam) { t with ab := t.rb } = .next u ∧
      ShareBits (8 * l) u.rb s.ab) ∧
    (∃ t u, exec (.deanon len fam) s = .next t ∧ exec (.anon len fam) { t with ab := t.rb } = .next u ∧
      ShareBits (8 * l) u.rb s.ab)

/-! The transforms as functions. -/

/-- R140, R141: at every position the round input is the first `pos` bits of S followed by the last `128 − pos` bits of
P, and the round bit is the top bit of byte 0 of its encryption. -/
def Obligations.RoundInputIsPrefixThenPad : Prop :=
  ∀ (k p s : Block) (pos : Nat), pos < 128 →
    (∀ i, i < 128 → (buildX s p pos).getMsbD i = if i < pos then s.getMsbD i else p.getMsbD i) ∧
    (roundBit k p s pos = true ↔ 0x80 ≤ (byteOf (aes k (buildX s p pos)) 0).toNat)

/-- R144: the round inputs at the edges. -/
def Obligations.RoundInputsAtTheEdges : Prop :=
  ∀ a p : Block, buildX a p 0 = p ∧
    (∀ pos, pos < 128 → pos % 8 = 0 → byteOf (buildX a p pos) (pos / 8) = byteOf p (pos / 8) ∧
      ∀ i, i < pos / 8 → byteOf (buildX a p pos) i = byteOf a i) ∧
    (∀ l pos i, l < 16 → pos < 8 * l → l ≤ i → i < 16 → byteOf (buildX a p pos) i = byteOf p i)

/-- R173: `Inv(Fwd(A, L), L) = A[0..L)` and `Fwd(Inv(B, L), L) = B[0..L)`. -/
def Obligations.ForwardAndInverseUndoEachOther : Prop :=
  ∀ (k p a : Block) (l : Nat), 1 ≤ l → l ≤ 16 →
    inv k p (fwd k p a l) l = keepBytes l a ∧ fwd k p (inv k p a l) l = keepBytes l a

/-- R152: prefix preservation, with its converse. -/
def Obligations.PrefixesArePreservedBothWays : Prop :=
  ∀ (k p a b : Block) (l n : Nat), 1 ≤ l → l ≤ 16 → n ≤ 8 * l →
    (ShareBits n a b ↔ ShareBits n (fwd k p a l) (fwd k p b l))

/-- R153: for each L the map is a bijection on L-byte values, with Inv its inverse. -/
def Obligations.ForwardIsABijectionOnEachLength : Prop :=
  ∀ (k p : Block) (l : Nat), 1 ≤ l → l ≤ 16 →
    (∀ a, IsBytes l (fwd k p a l)) ∧
    (∀ a b, IsBytes l a → IsBytes l b → fwd k p a l = fwd k p b l → a = b) ∧
    (∀ b, IsBytes l b → ∃ a, IsBytes l a ∧ fwd k p a l = b) ∧
    (∀ a, IsBytes l a → inv k p (fwd k p a l) l = a)

/-- R152: the leading m bytes of a longer result are the result of the m-byte address. -/
def Obligations.LeadingBytesDoNotDependOnLength : Prop :=
  ∀ (k p a : Block) (m l : Nat), 1 ≤ m → m ≤ l → l ≤ 16 → keepBytes m (fwd k p a l) = fwd k p a m

/-- R179: output bit pos of Inv depends only on the first pos + 1 bits, so Inv preserves prefixes too. -/
def Obligations.InversePreservesPrefixes : Prop :=
  ∀ (k p a b : Block) (l n : Nat), 1 ≤ l → l ≤ 16 → n ≤ 8 * l → ShareBits n a b →
    ShareBits n (inv k p a l) (inv k p b l)

/-! AES-128. -/

/-- R214: the 44 words of the key schedule, and `RK0 = k`. -/
def Obligations.KeyScheduleFollowsItsRecurrence : Prop :=
  ∀ k : Block, (keyExpansion k).rk0 = k ∧ (∀ i, i < 4 → scheduleWord (keyExpansion k) i = wordOf k i) ∧
    ∀ i, 4 ≤ i → i < 44 → scheduleWord (keyExpansion k) i =
      scheduleWord (keyExpansion k) (i - 4) ^^^
        (if i % 4 = 0 then
          subWord (rotWord (scheduleWord (keyExpansion k) (i - 1))) ^^^ wordBe (rconByte (i / 4)) 0 0 0
         else scheduleWord (keyExpansion k) (i - 1))

/-- R215: the all-zero key has a nonzero RK1, so no key has an all-zero schedule. -/
def Obligations.NoKeyHasAnAllZeroSchedule : Prop :=
  (keyExpansion 0).rk1 = 0x62636363626363636263636362636363 ∧ ∀ k : Block, keyExpansion k ≠ KeySchedule.zero

/-- R212, R213: each entry of the S-box is the inverse of its index in GF(2^8), 0 for 0, followed by the affine map.
This fixes all 256 entries, since an inverse is unique. -/
def Obligations.SboxIsInverseThenAffineMap : Prop :=
  sbox 0x53 = 0xed ∧ ∀ v : Byte, ∃ w : Byte,
    (if v = 0 then w = 0 else fieldMul v w = 1) ∧ sbox v = affineMap w

/-- R210: the round order of AES-128 under the round keys of `k`: a first AddRoundKey, nine rounds with MixColumns, and a
tenth without. InMap and OutMap are the identity in the model's layout (log 16). -/
def Obligations.AesRunsTenRounds : Prop :=
  ∀ k x : Block, ∃ s : Nat → Block,
    s 0 = addRoundKey x (roundKey (keyExpansion k) 0) ∧
    (∀ r, 1 ≤ r → r ≤ 9 →
      s r = addRoundKey (mixColumns (shiftRows (subBytes (s (r - 1))))) (roundKey (keyExpansion k) r)) ∧
    aes k x = addRoundKey (shiftRows (subBytes (s 9))) (roundKey (keyExpansion k) 10)

/-- R216, R217, R218, and SubBytes of R213: each acts cell by cell. -/
def Obligations.AesStepsActCellByCell : Prop :=
  ∀ (s rk : Block) (r c : Nat), r < 4 → c < 4 →
    cellOf (subBytes s) r c = sbox (cellOf s r c) ∧
    cellOf (shiftRows s) r c = cellOf s r ((c + r) % 4) ∧
    cellOf (mixColumns s) 0 c = xtime (cellOf s 0 c) ^^^ (xtime (cellOf s 1 c) ^^^ cellOf s 1 c) ^^^ cellOf s 2 c ^^^ cellOf s 3 c ∧
    cellOf (mixColumns s) 1 c = cellOf s 0 c ^^^ xtime (cellOf s 1 c) ^^^ (xtime (cellOf s 2 c) ^^^ cellOf s 2 c) ^^^ cellOf s 3 c ∧
    cellOf (mixColumns s) 2 c = cellOf s 0 c ^^^ cellOf s 1 c ^^^ xtime (cellOf s 2 c) ^^^ (xtime (cellOf s 3 c) ^^^ cellOf s 3 c) ∧
    cellOf (mixColumns s) 3 c = (xtime (cellOf s 0 c) ^^^ cellOf s 0 c) ^^^ cellOf s 1 c ^^^ cellOf s 2 c ^^^ xtime (cellOf s 3 c) ∧
    cellOf (addRoundKey s rk) r c = cellOf s r c ^^^ byteOf rk (r + 4 * c)

/-! The whole machine. -/

/-- R35, R38, R42, R43, R44, R47, R240: every step of every agent keeps the invariant. -/
def Obligations.EveryStepKeepsInvariant : Prop :=
  ∀ s t : State, StateInv s → step s = .next t → StateInv t

/-- The state right after reset meets the invariant. BASE is the model's choice there (log 3). -/
def Obligations.ResetStateMeetsInvariant : Prop := StateInv State.reset

/-- R46: whenever KEYED = 1, ZEROED = 0. -/
def Obligations.KeyedBlockReadsNotZeroed : Prop :=
  ∀ s : State, StateInv s → s.keyed = true → zeroed s = false

/-- R56: what the host does in a step, and all it can see of it, is the same in any two states that differ only in
secrets and agree on the one bit ZEROED. -/
def Obligations.SecretsNeverReachTheHost : Prop :=
  ∀ s t : State, engineDue s = false → publicView s = publicView t → zeroed s = zeroed t →
    SameToHost (step s) (step t)

/-- R40, R43, R120: the only path into K, and the only way KEYED rises, is a SETUP that passes both its checks. -/
def Obligations.OnlySetupLoadsAKey : Prop :=
  ∀ s t : State, step s = .next t → (t.k ≠ s.k ∧ t.k ≠ 0) ∨ (s.keyed = false ∧ t.keyed = true) →
    engineDue s = true ∧ ∃ slen asc, decode s.hasU32 s.cur = .ok (.setup slen asc) ∧ 32 ≤ slen ∧
      (asc = true → ∀ i, i < 32 → (stageByte s.stage i).toNat < 0x80) ∧
      t.keyed = true ∧ ∀ i, i < 16 → byteOf t.k i = stageByte s.stage i

/-- R37: no command writes AB: only a host write to ADDRn while BUSY = 0, or reset, changes it. -/
def Obligations.OnlyTheHostChangesTheAddressBuffer : Prop :=
  ∀ s t : State, step s = .next t → t.ab ≠ s.ab →
    engineDue s = false ∧
      ((∃ rest, s.host = .reset :: rest) ∨
       (s.busy = false ∧ ∃ j v rest, j < 4 ∧ s.host = .write (s.base + (0x010 + 4 * j)) 4 v :: rest))

/-- R285, R290: WAIT ends, whatever LATENCY is, and its last STATUS read already shows what the complete step left.
The bound counts the model's own field `left` (log 2). -/
def Obligations.WaitEndsWithTheFinishedStatus : Prop :=
  ∀ (s : State) (rest : List HostOp), s.host = .wait :: rest →
    ∃ n t v earlier, n ≤ s.left + 2 ∧ Sys2Proof.core.run n s = .next t ∧ t.host = rest ∧ t.busy = false ∧
      t.seen = v :: earlier ∧ v.getLsbD 0 = false ∧ ∀ free, statusWord free t = v

/-- R80, R109: the host's operations are taken in order; WAIT alone stays, and only while BUSY = 1; at most one word is
read in a step. `host`, `seen` and `left` are the model's own (log 1, log 2, log 6). -/
def Obligations.HostOperationsAreTakenInOrder : Prop :=
  ∀ (s t : State) (op : HostOp) (rest : List HostOp), HostTurn s op rest → step s = .next t →
    (t.host = rest ∨ (op = .wait ∧ s.busy = true ∧ t.host = op :: rest)) ∧
    (t.seen = s.seen ∨ ∃ v, t.seen = v :: s.seen) ∧ t.base = s.base ∧ t.hasU32 = s.hasU32

/-- R75, R254: no step is refused, and the only fault is a refused bus access of the host. -/
def Obligations.OnlyRefusedAccessesStopTheMachine : Prop :=
  ∀ s : State, (∃ t, step s = .next t) ∨
    ∃ addr width op rest, step s = .fault (.busError addr width) ∧ HostTurn s op rest ∧
      (op = .read addr width ∨ ∃ v, op = .write addr width v) ∧ ¬ ∃ off, LegalAccess s.base addr width off
end

