-- ==== Sys2Proof/Laws/Bytes.lean ====
section
/-! SUPPORT. Laws of bytes, words and blocks: reading after writing, and the same facts bit by bit from the most
significant end. -/

namespace Sys2Proof.Laws

open Sys2Proof.Machine

theorem getMsbD_blockOf (f : Nat → Byte) (i : Nat) (hi : i < 128) :
    (blockOf f).getMsbD i = (f (i / 8)).getMsbD (i % 8) := by
  obtain ⟨q, r, hr, rfl⟩ : ∃ q r, r < 8 ∧ i = 8 * q + r := ⟨i / 8, i % 8, by omega, by omega⟩
  have hq : q < 16 := by omega
  rw [show (8 * q + r) / 8 = q by omega, show (8 * q + r) % 8 = r by omega]
  interval_cases q <;>
    simp (disch := omega) only [blockOf, BitVec.getMsbD_append, if_neg, if_pos] <;>
    congr 1 <;> omega

theorem getMsbD_byteOf (b : Block) (i j : Nat) (hi : i < 16) (hj : j < 8) :
    (byteOf b i).getMsbD j = b.getMsbD (8 * i + j) := by
  have h1 : 8 * i + j < 128 := by omega
  have h2 : 8 - 1 - j < 8 := by omega
  simp only [byteOf, BitVec.getMsbD, BitVec.getLsbD_extractLsb', hj, h1, h2, decide_true, Bool.true_and]
  congr 1
  omega

theorem byteOf_blockOf (f : Nat → Byte) (i : Nat) (hi : i < 16) : byteOf (blockOf f) i = f i := by
  apply BitVec.eq_of_getMsbD_eq
  intro j hj
  rw [getMsbD_byteOf _ _ _ hi hj, getMsbD_blockOf _ _ (by omega), show (8 * i + j) / 8 = i by omega,
    show (8 * i + j) % 8 = j by omega]

theorem block_ext {a b : Block} (h : ∀ i, i < 16 → byteOf a i = byteOf b i) : a = b := by
  apply BitVec.eq_of_getMsbD_eq
  intro i hi
  have := congrArg (·.getMsbD (i % 8)) (h (i / 8) (by omega))
  simp only [getMsbD_byteOf _ (i / 8) (i % 8) (by omega) (by omega)] at this
  rwa [show 8 * (i / 8) + i % 8 = i by omega] at this

/-- Bit i of a block is bit i mod 8 of its byte i / 8. -/
theorem getMsbD_eq_byteOf (b : Block) (i : Nat) (hi : i < 128) :
    b.getMsbD i = (byteOf b (i / 8)).getMsbD (i % 8) := by
  rw [getMsbD_byteOf _ _ _ (by omega) (by omega), show 8 * (i / 8) + i % 8 = i by omega]

theorem byteOf_setByte (b : Block) (i j : Nat) (v : Byte) (hj : j < 16) :
    byteOf (setByte b i v) j = if j = i then v else byteOf b j := by
  rw [setByte, byteOf_blockOf _ _ hj]

theorem byteOf_keepBytes (n : Nat) (b : Block) (i : Nat) (hi : i < 16) :
    byteOf (keepBytes n b) i = if i < n then byteOf b i else 0 := by
  rw [keepBytes, byteOf_blockOf _ _ hi]

theorem byteOf_storeBytes (d : Block) (n : Nat) (v : Block) (i : Nat) (hi : i < 16) :
    byteOf (storeBytes d n v) i = if i < n then byteOf v i else byteOf d i := by
  rw [storeBytes, byteOf_blockOf _ _ hi]

theorem byteOf_setWord (b : Block) (j : Nat) (w : Word) (i : Nat) (hi : i < 16) :
    byteOf (setWord b j w) i = if i / 4 = j then bytesBe w (i % 4) else byteOf b i := by
  rw [setWord, byteOf_blockOf _ _ hi]

theorem byteOf_xor (a b : Block) (i : Nat) : byteOf (a ^^^ b) i = byteOf a i ^^^ byteOf b i := by
  simp [byteOf, BitVec.extractLsb'_xor]

theorem getMsbD_keepBytes (n : Nat) (b : Block) (i : Nat) (hi : i < 128) :
    (keepBytes n b).getMsbD i = if i < 8 * n then b.getMsbD i else false := by
  rw [getMsbD_eq_byteOf _ _ hi, byteOf_keepBytes _ _ _ (by omega), getMsbD_eq_byteOf b i hi]
  by_cases h : i < 8 * n
  · rw [if_pos h, if_pos (by omega)]
  · rw [if_neg h, if_neg (by omega)]; simp

theorem getMsbD_storeBytes (d : Block) (n : Nat) (v : Block) (i : Nat) (hi : i < 128) :
    (storeBytes d n v).getMsbD i = if i < 8 * n then v.getMsbD i else d.getMsbD i := by
  rw [getMsbD_eq_byteOf _ _ hi, byteOf_storeBytes _ _ _ _ (by omega), getMsbD_eq_byteOf v i hi,
    getMsbD_eq_byteOf d i hi]
  by_cases h : i < 8 * n
  · rw [if_pos h, if_pos (by omega)]
  · rw [if_neg h, if_neg (by omega)]

theorem wordBe_bytesBe (w : Word) :
    wordBe (bytesBe w 0) (bytesBe w 1) (bytesBe w 2) (bytesBe w 3) = w := by
  apply BitVec.eq_of_getLsbD_eq
  intro i hi
  simp only [wordBe, bytesBe, BitVec.getLsbD_append, BitVec.getLsbD_extractLsb']
  obtain h | h | h | h : i < 8 ∨ (8 ≤ i ∧ i < 16) ∨ (16 ≤ i ∧ i < 24) ∨ 24 ≤ i := by omega
  all_goals
    simp (disch := omega) only [if_pos, if_neg, decide_eq_true, Bool.true_and]
    congr 1
    omega

theorem bytesBe_wordBe (b0 b1 b2 b3 : Byte) (i : Nat) (hi : i < 4) :
    bytesBe (wordBe b0 b1 b2 b3) i = [b0, b1, b2, b3].getD i 0 := by
  interval_cases i <;> apply BitVec.eq_of_getLsbD_eq <;> intro j hj <;>
    simp only [bytesBe, wordBe, BitVec.getLsbD_append, BitVec.getLsbD_extractLsb'] <;>
    simp (disch := omega) only [if_pos, if_neg, decide_eq_true, Bool.true_and] <;>
    simp only [List.getD_cons_zero, List.getD_cons_succ] <;> congr 1 <;> omega

theorem wordOf_setWord (b : Block) (i j : Nat) (w : Word) (hi : i < 4) :
    wordOf (setWord b j w) i = if i = j then w else wordOf b i := by
  unfold wordOf
  simp (disch := omega) only [byteOf_setWord, show (4 * i) / 4 = i by omega, show (4 * i + 1) / 4 = i by omega,
    show (4 * i + 2) / 4 = i by omega, show (4 * i + 3) / 4 = i by omega, show (4 * i) % 4 = 0 by omega,
    show (4 * i + 1) % 4 = 1 by omega, show (4 * i + 2) % 4 = 2 by omega, show (4 * i + 3) % 4 = 3 by omega]
  by_cases h : i = j
  · simp only [h, if_true, wordBe_bytesBe]
  · simp only [h, if_false]

theorem bytesBe_wordOf (b : Block) (i j : Nat) (hj : j < 4) :
    bytesBe (wordOf b i) j = byteOf b (4 * i + j) := by
  rw [wordOf, bytesBe_wordBe _ _ _ _ _ hj]
  interval_cases j <;> rfl

theorem stageKey_append (a b : Block) : stageKey (a ++ b) = a := by
  apply BitVec.eq_of_getLsbD_eq
  intro i hi
  rw [stageKey, BitVec.getLsbD_extractLsb', BitVec.getLsbD_append, if_neg (by omega), decide_eq_true hi,
    Bool.true_and, Nat.add_sub_cancel_left]

theorem stagePad_append (a b : Block) : stagePad (a ++ b) = b := by
  apply BitVec.eq_of_getLsbD_eq
  intro i hi
  rw [stagePad, BitVec.getLsbD_extractLsb', BitVec.getLsbD_append, if_pos (by omega), decide_eq_true hi,
    Bool.true_and, Nat.zero_add]

theorem stage_split (st : Secret) : stageKey st ++ stagePad st = st := by
  apply BitVec.eq_of_getLsbD_eq
  intro i hi
  rw [BitVec.getLsbD_append, stageKey, stagePad, BitVec.getLsbD_extractLsb', BitVec.getLsbD_extractLsb']
  by_cases h : i < 128
  · rw [if_pos h, decide_eq_true h, Bool.true_and, Nat.zero_add]
  · rw [if_neg h, decide_eq_true (by omega), Bool.true_and, Nat.add_sub_of_le (by omega)]

theorem stageByte_setStageWord (st : Secret) (j : Nat) (w : Word) (i : Nat) (hj : j < 8) (hi : i < 32) :
    stageByte (setStageWord st j w) i = if i / 4 = j then bytesBe w (i % 4) else stageByte st i := by
  unfold setStageWord stageByte
  by_cases h4 : j < 4 <;> by_cases h16 : i < 16 <;>
    simp only [h4, h16, if_true, if_false, stageKey_append, stagePad_append]
  · rw [byteOf_setWord _ _ _ _ h16]
  · rw [if_neg (by omega)]
  · rw [if_neg (by omega)]
  · rw [byteOf_setWord _ _ _ _ (by omega), show (i - 16) % 4 = i % 4 by omega]
    by_cases h : i / 4 = j
    · rw [if_pos h, if_pos (by omega)]
    · rw [if_neg h, if_neg (by omega)]

end Sys2Proof.Laws
end

