-- ==== Sys2Proof/Laws/Aes.lean ====
section
/-! SUPPORT. Laws of the key schedule (45_aes128.md R214): words of a block built from words, one round key from the
one before it, each round key of `KeyExpansion` from the one before it, and the cells of the AES steps. -/

namespace Sys2Proof.Laws

open Sys2Proof.Machine Sys2Proof.Safety

/-- R71: word j of a block is its bits from the j-th quarter on. -/
theorem wordOf_eq_extract (b : Block) (j : Nat) (hj : j < 4) : wordOf b j = b.extractLsb' (32 * (3 - j)) 32 := by
  apply BitVec.eq_of_getLsbD_eq
  intro i hi
  simp only [wordOf, wordBe, byteOf, BitVec.getLsbD_append, BitVec.getLsbD_extractLsb']
  rw [decide_eq_true hi]
  obtain h | h | h | h : i < 8 ∨ (8 ≤ i ∧ i < 16) ∨ (16 ≤ i ∧ i < 24) ∨ 24 ≤ i := by omega
  all_goals
    simp (disch := omega) only [if_pos, if_neg, decide_eq_true, Bool.true_and]
    congr 1
    omega

theorem wordOf_append (a b c d : Word) :
    wordOf (a ++ b ++ c ++ d : Block) 0 = a ∧ wordOf (a ++ b ++ c ++ d : Block) 1 = b ∧
    wordOf (a ++ b ++ c ++ d : Block) 2 = c ∧ wordOf (a ++ b ++ c ++ d : Block) 3 = d := by
  refine ⟨?_, ?_, ?_, ?_⟩ <;> rw [wordOf_eq_extract _ _ (by omega)] <;> apply BitVec.eq_of_getLsbD_eq <;>
    intro i hi <;> rw [BitVec.getLsbD_extractLsb', decide_eq_true hi] <;> simp only [BitVec.getLsbD_append] <;>
    simp (disch := omega) only [if_pos, if_neg, Bool.true_and] <;> congr 1 <;> omega

/-- R214: the four words of the next round key. -/
theorem wordOf_nextRoundKey (rcon : Byte) (rk : Block) :
    wordOf (nextRoundKey rcon rk) 0 =
      wordOf rk 0 ^^^ (subWord (rotWord (wordOf rk 3)) ^^^ wordBe rcon 0 0 0) ∧
    wordOf (nextRoundKey rcon rk) 1 = wordOf rk 1 ^^^ wordOf (nextRoundKey rcon rk) 0 ∧
    wordOf (nextRoundKey rcon rk) 2 = wordOf rk 2 ^^^ wordOf (nextRoundKey rcon rk) 1 ∧
    wordOf (nextRoundKey rcon rk) 3 = wordOf rk 3 ^^^ wordOf (nextRoundKey rcon rk) 2 := by
  unfold nextRoundKey
  simp only [wordOf_append, and_self]

/-- R214: each round key is the next one after its predecessor, with its own Rcon. -/
theorem keyExpansion_chain (k : Block) :
    (keyExpansion k).rk0 = k ∧ (keyExpansion k).rk1 = nextRoundKey 0x01 (keyExpansion k).rk0 ∧
    (keyExpansion k).rk2 = nextRoundKey 0x02 (keyExpansion k).rk1 ∧
    (keyExpansion k).rk3 = nextRoundKey 0x04 (keyExpansion k).rk2 ∧
    (keyExpansion k).rk4 = nextRoundKey 0x08 (keyExpansion k).rk3 ∧
    (keyExpansion k).rk5 = nextRoundKey 0x10 (keyExpansion k).rk4 ∧
    (keyExpansion k).rk6 = nextRoundKey 0x20 (keyExpansion k).rk5 ∧
    (keyExpansion k).rk7 = nextRoundKey 0x40 (keyExpansion k).rk6 ∧
    (keyExpansion k).rk8 = nextRoundKey 0x80 (keyExpansion k).rk7 ∧
    (keyExpansion k).rk9 = nextRoundKey 0x1b (keyExpansion k).rk8 ∧
    (keyExpansion k).rk10 = nextRoundKey 0x36 (keyExpansion k).rk9 :=
  ⟨rfl, rfl, rfl, rfl, rfl, rfl, rfl, rfl, rfl, rfl, rfl⟩

/-- R214: word j of round key r is word 4r + j of the schedule. -/
theorem scheduleWord_of_roundKey (ks : KeySchedule) (r j : Nat) (hj : j < 4) :
    scheduleWord ks (4 * r + j) = wordOf (roundKey ks r) j := by
  rw [scheduleWord, show (4 * r + j) / 4 = r by omega, show (4 * r + j) % 4 = j by omega]

/-- R211: a cell of a block built from cells. -/
theorem cellOf_blockOfCells (f : Nat → Nat → Byte) {r c : Nat} (hr : r < 4) (hc : c < 4) :
    cellOf (blockOfCells f) r c = f r c := by
  rw [cellOf, blockOfCells, byteOf_blockOf _ _ (by omega), show (r + 4 * c) % 4 = r by omega,
    show (r + 4 * c) / 4 = c by omega]

/-- R210: the cipher under any schedule, with its nine middle rounds as `cipherRound`. -/
theorem cipher_eq (ks : KeySchedule) (x : Block) :
    cipher ks x = addRoundKey (shiftRows (subBytes (cipherRound (cipherRound (cipherRound (cipherRound (cipherRound
      (cipherRound (cipherRound (cipherRound (cipherRound (addRoundKey x ks.rk0) ks.rk1) ks.rk2) ks.rk3) ks.rk4) ks.rk5)
      ks.rk6) ks.rk7) ks.rk8) ks.rk9))) ks.rk10 := rfl

end Sys2Proof.Laws
end

