-- ==== Sys2Proof/Laws/Cascade.lean ====
section
/-! SUPPORT. Laws of the cascade, bit by bit: what a round's cipher input is, what each round leaves in OUT, and so
what each bit of `Fwd` and `Inv` is. -/

namespace Sys2Proof.Laws

open Sys2Proof.Machine Sys2Proof.Safety

/-- R145: the top `bit` bits of the mask are set, the others are not. -/
theorem getMsbD_highMask (bit j : Nat) (hb : bit ≤ 8) (hj : j < 8) :
    (highMask bit).getMsbD j = decide (j < bit) := by
  interval_cases bit <;> interval_cases j <;> decide

theorem getMsbD_bitByte (b : Bool) (bit j : Nat) (hb : bit < 8) (hj : j < 8) :
    (bitByte b bit).getMsbD j = (b && decide (j = bit)) := by
  cases b <;> interval_cases bit <;> interval_cases j <;> decide

/-- R140: the cipher input is the first `pos` bits of S followed by the last `128 − pos` bits of P. -/
theorem getMsbD_buildX (s p : Block) (pos i : Nat) (hi : i < 128) :
    (buildX s p pos).getMsbD i = if i < pos then s.getMsbD i else p.getMsbD i := by
  unfold buildX
  by_cases h0 : pos = 0
  · simp [h0]
  · simp only [h0, if_false]
    rw [getMsbD_blockOf _ _ hi, getMsbD_eq_byteOf s i hi, getMsbD_eq_byteOf p i hi]
    rcases Nat.lt_trichotomy (i / 8) (pos / 8) with h | h | h
    · rw [if_pos h, if_pos (by omega)]
    · rw [if_neg (by omega), if_pos h, ← h, BitVec.getMsbD_or, BitVec.getMsbD_and, BitVec.getMsbD_and,
        BitVec.getMsbD_not, getMsbD_highMask _ _ (by omega) (by omega)]
      by_cases hlt : i < pos
      · rw [if_pos hlt, decide_eq_true (by omega : i % 8 < pos % 8)]
        simp
      · rw [if_neg hlt, decide_eq_false (by omega : ¬ i % 8 < pos % 8)]
        simp [Nat.mod_lt]
    · rw [if_neg (by omega), if_neg (by omega), if_neg (by omega)]

/-- R172: a round's cipher input depends only on the first `pos` bits of its source. -/
theorem buildX_congr {s t p : Block} {pos : Nat} (h : ShareBits pos s t) : buildX s p pos = buildX t p pos := by
  apply BitVec.eq_of_getMsbD_eq
  intro i hi
  rw [getMsbD_buildX _ _ _ _ hi, getMsbD_buildX _ _ _ _ hi]
  split
  · exact h i ‹_›
  · rfl

theorem roundBit_congr {k p s t : Block} {pos : Nat} (h : ShareBits pos s t) :
    roundBit k p s pos = roundBit k p t pos := by
  rw [roundBit, roundBit, buildX_congr h]

/-- What placing a bit does: bit `pos` is combined with `b`, every other bit stays. -/
theorem getMsbD_placeBit (out : Block) (op : Byte → Byte → Byte) (g : Bool → Bool → Bool)
    (hop : ∀ u v j, j < 8 → (op u v).getMsbD j = g (u.getMsbD j) (v.getMsbD j)) (hg : ∀ u, g u false = u)
    (b : Bool) (pos i : Nat) (hp : pos < 128) (hi : i < 128) :
    (setByte out (pos / 8) (op (byteOf out (pos / 8)) (bitByte b (pos % 8)))).getMsbD i =
      if i = pos then g (out.getMsbD i) b else out.getMsbD i := by
  rw [getMsbD_eq_byteOf _ i hi, byteOf_setByte _ _ _ _ (by omega), getMsbD_eq_byteOf out i hi]
  by_cases h : i / 8 = pos / 8
  · rw [if_pos h, ← h, hop _ _ _ (by omega), getMsbD_bitByte _ _ _ (by omega) (by omega)]
    by_cases he : i = pos
    · subst he; simp
    · rw [if_neg he, decide_eq_false (by omega : ¬ i % 8 = pos % 8), Bool.and_false, hg]
  · rw [if_neg h, if_neg (by rintro rfl; exact h rfl)]

theorem forwardRounds_aop (k p : Block) (n : Nat) (c : Scratch) : (forwardRounds k p n c).aop = c.aop := by
  induction n with
  | zero => rfl
  | succ n ih => exact ih

theorem inverseRounds_aop (k p : Block) (n : Nat) (c : Scratch) : (inverseRounds k p n c).aop = c.aop := by
  induction n with
  | zero => rfl
  | succ n ih => exact ih

/-- R143: after n rounds bit i < n of OUT is ORed with round bit i, and the bits from n on are as before. -/
theorem getMsbD_forwardRounds_out (k p : Block) (c : Scratch) (n i : Nat) (hn : n ≤ 128) (hi : i < 128) :
    (forwardRounds k p n c).out.getMsbD i =
      if i < n then (c.out.getMsbD i || roundBit k p c.aop i) else c.out.getMsbD i := by
  induction n with
  | zero => simp [forwardRounds]
  | succ n ih =>
    have h := getMsbD_placeBit (forwardRounds k p n c).out (· ||| ·) or (fun _ _ _ _ => BitVec.getMsbD_or)
      Bool.or_false (topBit (aes k (buildX (forwardRounds k p n c).aop p n))) n i (by omega) hi
    rw [forwardRounds_aop] at h
    refine (show (forwardRounds k p (n + 1) c).out.getMsbD i = _ from ?_)
    rw [forwardRounds, forwardRound, forwardRounds_aop, h, ih (by omega)]
    by_cases he : i = n
    · subst he; simp [roundBit]
    · rw [if_neg he]
      by_cases hl : i < n
      · rw [if_pos hl, if_pos (by omega)]
      · rw [if_neg hl, if_neg (by omega)]

/-- R171: one inverse round changes bit n of OUT alone, by round bit n of OUT as it was. -/
theorem getMsbD_inverseRound_out (k p : Block) (c : Scratch) (n i : Nat) (hn : n < 128) (hi : i < 128) :
    (inverseRound k p n c).out.getMsbD i =
      if i = n then (c.out.getMsbD i ^^ roundBit k p c.out n) else c.out.getMsbD i :=
  getMsbD_placeBit c.out (· ^^^ ·) xor (fun _ _ _ _ => BitVec.getMsbD_xor) Bool.xor_false
    (topBit (aes k (buildX c.out p n))) n i hn hi

/-- R172: after n inverse rounds the bits before n are final (each is the source's bit XOR the round bit of the bits
rebuilt before it), and the bits from n on are the source's. -/
theorem getMsbD_inverseRounds_out (k p : Block) (c : Scratch) (n i : Nat) (hn : n ≤ 128) (hi : i < 128) :
    (inverseRounds k p n c).out.getMsbD i =
      if i < n then (c.out.getMsbD i ^^ roundBit k p (inverseRounds k p n c).out i) else c.out.getMsbD i := by
  induction n with
  | zero => simp [inverseRounds]
  | succ n ih =>
    have step : ∀ j, j < 128 → (inverseRounds k p (n + 1) c).out.getMsbD j =
        if j = n then ((inverseRounds k p n c).out.getMsbD j ^^ roundBit k p (inverseRounds k p n c).out n)
        else (inverseRounds k p n c).out.getMsbD j :=
      fun j hj => getMsbD_inverseRound_out k p _ n j (by omega) hj
    have share : ∀ m, m ≤ n → ShareBits m (inverseRounds k p (n + 1) c).out (inverseRounds k p n c).out := by
      intro m hm j hj
      rw [step j (by omega), if_neg (by omega)]
    rw [step i hi]
    by_cases he : i = n
    · subst he
      rw [if_pos rfl, if_pos (by omega), ih (by omega), if_neg (by omega), roundBit_congr (share i (by omega))]
    · rw [if_neg he, ih (by omega)]
      by_cases hl : i < n
      · rw [if_pos hl, if_pos (by omega), roundBit_congr (share i (by omega))]
      · rw [if_neg hl, if_neg (by omega)]

/-- R143, R152: each result bit is the address's bit XOR the round bit. -/
theorem getMsbD_fwd (k p a : Block) (l i : Nat) (hl : l ≤ 16) (hi : i < 128) :
    (fwd k p a l).getMsbD i = if i < 8 * l then (a.getMsbD i ^^ roundBit k p a i) else false := by
  rw [fwd, getMsbD_keepBytes _ _ _ hi, BitVec.getMsbD_xor, forwardScratch,
    getMsbD_forwardRounds_out _ _ _ _ _ (by omega) hi]
  by_cases h : i < 8 * l
  · simp [h, forwardStart, Scratch.zero]
  · simp [h]

/-- R171: each result bit is the anonymised address's bit XOR the round bit of the result itself. -/
theorem getMsbD_inv (k p a : Block) (l i : Nat) (hl : l ≤ 16) (hi : i < 128) :
    (inv k p a l).getMsbD i = if i < 8 * l then (a.getMsbD i ^^ roundBit k p (inv k p a l) i) else false := by
  have bits : ∀ j, j < 128 → (inv k p a l).getMsbD j =
      if j < 8 * l then (inverseScratch k p a l).out.getMsbD j else false :=
    fun j hj => getMsbD_keepBytes _ _ _ hj
  have rounds := getMsbD_inverseRounds_out k p (inverseStart a) (8 * l) i (by omega) hi
  rw [bits i hi]
  by_cases h : i < 8 * l
  · rw [if_pos h] at rounds
    have share : ShareBits i (inverseScratch k p a l).out (inv k p a l) := by
      intro j hj
      rw [bits j (by omega), if_pos (by omega)]
    rw [if_pos h, if_pos h, ← roundBit_congr share]
    exact rounds
  · rw [if_neg h, if_neg h]

end Sys2Proof.Laws
end

