-- ==== Sys2Proof/Laws/Decode.lean ====
section
/-! SUPPORT. Laws of the decoder: the fields of a command word by arithmetic (30_encoding.md R101, R103), and every way
a word decodes. -/

namespace Sys2Proof.Laws

theorem toNat_field (w : Word) (lo n : Nat) : (w.extractLsb' lo n).toNat = w.toNat / 2 ^ lo % 2 ^ n := by
  simp [BitVec.extractLsb'_toNat, Nat.shiftRight_eq_div_pow]

/-- A field that reaches to bit 31 is zero exactly when the word is below 2^lo. -/
theorem topField_eq_zero (w : Word) (lo n : Nat) (h : lo + n = 32) :
    w.extractLsb' lo n = 0#n ↔ w.toNat / 2 ^ lo = 0 := by
  have hlt : w.toNat / 2 ^ lo < 2 ^ n := by
    rw [Nat.div_lt_iff_lt_mul (by positivity), ← pow_add, Nat.add_comm n lo, h]
    exact w.isLt
  rw [← BitVec.toNat_inj, toNat_field, Nat.mod_eq_of_lt hlt]
  simp

theorem opcOf_eq (w : Word) : opcOf w = w.toNat % 16 := by simp [opcOf]

theorem slenOf_eq (w : Word) : slenOf w = w.toNat / 2 ^ 4 % 64 := toNat_field w 4 6

theorem lenOf_eq (w : Word) : lenOf w = w.toNat / 2 ^ 4 % 32 := toNat_field w 4 5

theorem famOf_eq (w : Word) : famOf w = familyOf (w.toNat / 2 ^ 9 % 8) := congrArg familyOf (toNat_field w 9 3)

theorem ascOf_eq (w : Word) : ascOf w = decide (w.toNat / 2 ^ 10 % 2 = 1) := by
  simp [ascOf, BitVec.getLsbD, Nat.testBit_eq_decide_div_mod_eq]

/-- R106: the family each code names. -/
theorem familyOf_cases (c : Nat) :
    (c = 0 ∧ familyOf c = .raw) ∨ (c = 1 ∧ familyOf c = .ipv4) ∨ (c = 2 ∧ familyOf c = .ipv6) ∨
    (3 ≤ c ∧ familyOf c = .other c) := by
  match c with
  | 0 => simp [familyOf]
  | 1 => simp [familyOf]
  | 2 => simp [familyOf]
  | n + 3 => simp [familyOf]

/-- R104: every way a word decodes. -/
theorem decode_ok_cases {hasU32 : Bool} {w : Word} {i : Instr} (h : decode hasU32 w = .ok i) :
    (w.toNat % 16 = 1 ∧ w.toNat / 2 ^ 11 = 0 ∧ i = .setup (slenOf w) (ascOf w)) ∨
    (w.toNat % 16 = 2 ∧ w.toNat / 2 ^ 12 = 0 ∧ i = .anon (lenOf w) (famOf w)) ∨
    (w.toNat % 16 = 3 ∧ w.toNat / 2 ^ 12 = 0 ∧ i = .deanon (lenOf w) (famOf w)) ∨
    (w.toNat % 16 = 4 ∧ w.toNat / 2 ^ 4 = 0 ∧ i = .release) ∨
    (w.toNat % 16 = 5 ∧ w.toNat / 2 ^ 4 = 0 ∧ hasU32 = true ∧ i = .anonU32) := by
  unfold decode at h
  rw [opcOf_eq] at h
  split at h
  · rename_i hq
    split at h
    · cases h
    · rename_i hr
      exact .inl ⟨hq, (topField_eq_zero w 11 21 rfl).mp (not_not.mp hr), (Except.ok.inj h).symm⟩
  · rename_i hq
    split at h
    · cases h
    · rename_i hr
      exact .inr (.inl ⟨hq, (topField_eq_zero w 12 20 rfl).mp (not_not.mp hr), (Except.ok.inj h).symm⟩)
  · rename_i hq
    split at h
    · cases h
    · rename_i hr
      exact .inr (.inr (.inl ⟨hq, (topField_eq_zero w 12 20 rfl).mp (not_not.mp hr), (Except.ok.inj h).symm⟩))
  · rename_i hq
    split at h
    · cases h
    · rename_i hr
      exact .inr (.inr (.inr (.inl ⟨hq, (topField_eq_zero w 4 28 rfl).mp (not_not.mp hr), (Except.ok.inj h).symm⟩)))
  · rename_i hq
    split at h
    · cases h
    · rename_i hu
      split at h
      · cases h
      · rename_i hr
        exact .inr (.inr (.inr (.inr ⟨hq, (topField_eq_zero w 4 28 rfl).mp (not_not.mp hr),
          by cases hasU32 <;> simp_all, (Except.ok.inj h).symm⟩)))
  · cases h

end Sys2Proof.Laws
end

