-- ==== Sys2Proof/Laws/State.lean ====
section
/-! SUPPORT. One lemma per field per update, all by rfl: what each named operation leaves in each field of State, so
that no later proof unfolds a record update. -/

namespace Sys2Proof.Laws

open Sys2Proof.Machine

@[simp] theorem fail_busy (e : ErrorKind) (s : State) : (fail e s).busy = s.busy := rfl
@[simp] theorem fail_cur (e : ErrorKind) (s : State) : (fail e s).cur = s.cur := rfl
@[simp] theorem fail_keyed (e : ErrorKind) (s : State) : (fail e s).keyed = s.keyed := rfl
@[simp] theorem fail_ovr (e : ErrorKind) (s : State) : (fail e s).ovr = s.ovr := rfl
@[simp] theorem fail_err (e : ErrorKind) (s : State) : (fail e s).err = errCode e := rfl
@[simp] theorem fail_rlen (e : ErrorKind) (s : State) : (fail e s).rlen = s.rlen := rfl
@[simp] theorem fail_ab (e : ErrorKind) (s : State) : (fail e s).ab = s.ab := rfl
@[simp] theorem fail_rb (e : ErrorKind) (s : State) : (fail e s).rb = s.rb := rfl
@[simp] theorem fail_stage (e : ErrorKind) (s : State) : (fail e s).stage = s.stage := rfl
@[simp] theorem fail_k (e : ErrorKind) (s : State) : (fail e s).k = s.k := rfl
@[simp] theorem fail_p (e : ErrorKind) (s : State) : (fail e s).p = s.p := rfl
@[simp] theorem fail_ks (e : ErrorKind) (s : State) : (fail e s).ks = s.ks := rfl
@[simp] theorem fail_scratch (e : ErrorKind) (s : State) : (fail e s).scratch = s.scratch := rfl
@[simp] theorem fail_base (e : ErrorKind) (s : State) : (fail e s).base = s.base := rfl
@[simp] theorem fail_hasU32 (e : ErrorKind) (s : State) : (fail e s).hasU32 = s.hasU32 := rfl
@[simp] theorem fail_host (e : ErrorKind) (s : State) : (fail e s).host = s.host := rfl
@[simp] theorem fail_seen (e : ErrorKind) (s : State) : (fail e s).seen = s.seen := rfl
@[simp] theorem fail_left (e : ErrorKind) (s : State) : (fail e s).left = s.left := rfl
@[simp] theorem fail_draws (e : ErrorKind) (s : State) : (fail e s).draws = s.draws := rfl

@[simp] theorem startCommand_busy (s : State) : (startCommand s).busy = s.busy := rfl
@[simp] theorem startCommand_cur (s : State) : (startCommand s).cur = s.cur := rfl
@[simp] theorem startCommand_keyed (s : State) : (startCommand s).keyed = s.keyed := rfl
@[simp] theorem startCommand_ovr (s : State) : (startCommand s).ovr = s.ovr := rfl
@[simp] theorem startCommand_err (s : State) : (startCommand s).err = 0 := rfl
@[simp] theorem startCommand_rlen (s : State) : (startCommand s).rlen = 0 := rfl
@[simp] theorem startCommand_ab (s : State) : (startCommand s).ab = s.ab := rfl
@[simp] theorem startCommand_rb (s : State) : (startCommand s).rb = 0 := rfl
@[simp] theorem startCommand_stage (s : State) : (startCommand s).stage = s.stage := rfl
@[simp] theorem startCommand_k (s : State) : (startCommand s).k = s.k := rfl
@[simp] theorem startCommand_p (s : State) : (startCommand s).p = s.p := rfl
@[simp] theorem startCommand_ks (s : State) : (startCommand s).ks = s.ks := rfl
@[simp] theorem startCommand_scratch (s : State) : (startCommand s).scratch = s.scratch := rfl
@[simp] theorem startCommand_base (s : State) : (startCommand s).base = s.base := rfl
@[simp] theorem startCommand_hasU32 (s : State) : (startCommand s).hasU32 = s.hasU32 := rfl
@[simp] theorem startCommand_host (s : State) : (startCommand s).host = s.host := rfl
@[simp] theorem startCommand_seen (s : State) : (startCommand s).seen = s.seen := rfl
@[simp] theorem startCommand_left (s : State) : (startCommand s).left = s.left := rfl
@[simp] theorem startCommand_draws (s : State) : (startCommand s).draws = s.draws := rfl

@[simp] theorem finishCommand_busy (s : State) : (finishCommand s).busy = false := rfl
@[simp] theorem finishCommand_cur (s : State) : (finishCommand s).cur = 0 := rfl
@[simp] theorem finishCommand_keyed (s : State) : (finishCommand s).keyed = s.keyed := rfl
@[simp] theorem finishCommand_ovr (s : State) : (finishCommand s).ovr = s.ovr := rfl
@[simp] theorem finishCommand_err (s : State) : (finishCommand s).err = s.err := rfl
@[simp] theorem finishCommand_rlen (s : State) : (finishCommand s).rlen = s.rlen := rfl
@[simp] theorem finishCommand_ab (s : State) : (finishCommand s).ab = s.ab := rfl
@[simp] theorem finishCommand_rb (s : State) : (finishCommand s).rb = s.rb := rfl
@[simp] theorem finishCommand_stage (s : State) : (finishCommand s).stage = s.stage := rfl
@[simp] theorem finishCommand_k (s : State) : (finishCommand s).k = s.k := rfl
@[simp] theorem finishCommand_p (s : State) : (finishCommand s).p = s.p := rfl
@[simp] theorem finishCommand_ks (s : State) : (finishCommand s).ks = s.ks := rfl
@[simp] theorem finishCommand_scratch (s : State) : (finishCommand s).scratch = Scratch.zero := rfl
@[simp] theorem finishCommand_base (s : State) : (finishCommand s).base = s.base := rfl
@[simp] theorem finishCommand_hasU32 (s : State) : (finishCommand s).hasU32 = s.hasU32 := rfl
@[simp] theorem finishCommand_host (s : State) : (finishCommand s).host = s.host := rfl
@[simp] theorem finishCommand_seen (s : State) : (finishCommand s).seen = s.seen := rfl
@[simp] theorem finishCommand_left (s : State) : (finishCommand s).left = 0 := rfl
@[simp] theorem finishCommand_draws (s : State) : (finishCommand s).draws = s.draws := rfl

@[simp] theorem acceptCommand_busy (v : Word) (s : State) : (acceptCommand v s).busy = true := rfl
@[simp] theorem acceptCommand_cur (v : Word) (s : State) : (acceptCommand v s).cur = v := rfl
@[simp] theorem acceptCommand_keyed (v : Word) (s : State) : (acceptCommand v s).keyed = s.keyed := rfl
@[simp] theorem acceptCommand_ovr (v : Word) (s : State) : (acceptCommand v s).ovr = false := rfl
@[simp] theorem acceptCommand_err (v : Word) (s : State) : (acceptCommand v s).err = s.err := rfl
@[simp] theorem acceptCommand_rlen (v : Word) (s : State) : (acceptCommand v s).rlen = s.rlen := rfl
@[simp] theorem acceptCommand_ab (v : Word) (s : State) : (acceptCommand v s).ab = s.ab := rfl
@[simp] theorem acceptCommand_rb (v : Word) (s : State) : (acceptCommand v s).rb = s.rb := rfl
@[simp] theorem acceptCommand_stage (v : Word) (s : State) : (acceptCommand v s).stage = s.stage := rfl
@[simp] theorem acceptCommand_k (v : Word) (s : State) : (acceptCommand v s).k = s.k := rfl
@[simp] theorem acceptCommand_p (v : Word) (s : State) : (acceptCommand v s).p = s.p := rfl
@[simp] theorem acceptCommand_ks (v : Word) (s : State) : (acceptCommand v s).ks = s.ks := rfl
@[simp] theorem acceptCommand_scratch (v : Word) (s : State) : (acceptCommand v s).scratch = s.scratch := rfl
@[simp] theorem acceptCommand_base (v : Word) (s : State) : (acceptCommand v s).base = s.base := rfl
@[simp] theorem acceptCommand_hasU32 (v : Word) (s : State) : (acceptCommand v s).hasU32 = s.hasU32 := rfl
@[simp] theorem acceptCommand_host (v : Word) (s : State) : (acceptCommand v s).host = s.host := rfl
@[simp] theorem acceptCommand_seen (v : Word) (s : State) : (acceptCommand v s).seen = s.seen := rfl
@[simp] theorem acceptCommand_left (v : Word) (s : State) : (acceptCommand v s).left = Config.latency s.draws := rfl
@[simp] theorem acceptCommand_draws (v : Word) (s : State) : (acceptCommand v s).draws = s.draws + 1 := rfl

@[simp] theorem ignoreWrite_busy (s : State) : (ignoreWrite s).busy = s.busy := rfl
@[simp] theorem ignoreWrite_cur (s : State) : (ignoreWrite s).cur = s.cur := rfl
@[simp] theorem ignoreWrite_keyed (s : State) : (ignoreWrite s).keyed = s.keyed := rfl
@[simp] theorem ignoreWrite_ovr (s : State) : (ignoreWrite s).ovr = true := rfl
@[simp] theorem ignoreWrite_err (s : State) : (ignoreWrite s).err = s.err := rfl
@[simp] theorem ignoreWrite_rlen (s : State) : (ignoreWrite s).rlen = s.rlen := rfl
@[simp] theorem ignoreWrite_ab (s : State) : (ignoreWrite s).ab = s.ab := rfl
@[simp] theorem ignoreWrite_rb (s : State) : (ignoreWrite s).rb = s.rb := rfl
@[simp] theorem ignoreWrite_stage (s : State) : (ignoreWrite s).stage = s.stage := rfl
@[simp] theorem ignoreWrite_k (s : State) : (ignoreWrite s).k = s.k := rfl
@[simp] theorem ignoreWrite_p (s : State) : (ignoreWrite s).p = s.p := rfl
@[simp] theorem ignoreWrite_ks (s : State) : (ignoreWrite s).ks = s.ks := rfl
@[simp] theorem ignoreWrite_scratch (s : State) : (ignoreWrite s).scratch = s.scratch := rfl
@[simp] theorem ignoreWrite_base (s : State) : (ignoreWrite s).base = s.base := rfl
@[simp] theorem ignoreWrite_hasU32 (s : State) : (ignoreWrite s).hasU32 = s.hasU32 := rfl
@[simp] theorem ignoreWrite_host (s : State) : (ignoreWrite s).host = s.host := rfl
@[simp] theorem ignoreWrite_seen (s : State) : (ignoreWrite s).seen = s.seen := rfl
@[simp] theorem ignoreWrite_left (s : State) : (ignoreWrite s).left = s.left := rfl
@[simp] theorem ignoreWrite_draws (s : State) : (ignoreWrite s).draws = s.draws := rfl

@[simp] theorem resetBlock_busy (s : State) : (resetBlock s).busy = false := rfl
@[simp] theorem resetBlock_cur (s : State) : (resetBlock s).cur = 0 := rfl
@[simp] theorem resetBlock_keyed (s : State) : (resetBlock s).keyed = false := rfl
@[simp] theorem resetBlock_ovr (s : State) : (resetBlock s).ovr = false := rfl
@[simp] theorem resetBlock_err (s : State) : (resetBlock s).err = 0 := rfl
@[simp] theorem resetBlock_rlen (s : State) : (resetBlock s).rlen = 0 := rfl
@[simp] theorem resetBlock_ab (s : State) : (resetBlock s).ab = 0 := rfl
@[simp] theorem resetBlock_rb (s : State) : (resetBlock s).rb = 0 := rfl
@[simp] theorem resetBlock_stage (s : State) : (resetBlock s).stage = 0 := rfl
@[simp] theorem resetBlock_k (s : State) : (resetBlock s).k = 0 := rfl
@[simp] theorem resetBlock_p (s : State) : (resetBlock s).p = 0 := rfl
@[simp] theorem resetBlock_ks (s : State) : (resetBlock s).ks = KeySchedule.zero := rfl
@[simp] theorem resetBlock_scratch (s : State) : (resetBlock s).scratch = Scratch.zero := rfl
@[simp] theorem resetBlock_base (s : State) : (resetBlock s).base = s.base := rfl
@[simp] theorem resetBlock_hasU32 (s : State) : (resetBlock s).hasU32 = s.hasU32 := rfl
@[simp] theorem resetBlock_host (s : State) : (resetBlock s).host = s.host := rfl
@[simp] theorem resetBlock_seen (s : State) : (resetBlock s).seen = s.seen := rfl
@[simp] theorem resetBlock_left (s : State) : (resetBlock s).left = 0 := rfl
@[simp] theorem resetBlock_draws (s : State) : (resetBlock s).draws = s.draws := rfl

@[simp] theorem zeroiseKey_busy (s : State) : (zeroiseKey s).busy = s.busy := rfl
@[simp] theorem zeroiseKey_cur (s : State) : (zeroiseKey s).cur = s.cur := rfl
@[simp] theorem zeroiseKey_keyed (s : State) : (zeroiseKey s).keyed = false := rfl
@[simp] theorem zeroiseKey_ovr (s : State) : (zeroiseKey s).ovr = s.ovr := rfl
@[simp] theorem zeroiseKey_err (s : State) : (zeroiseKey s).err = s.err := rfl
@[simp] theorem zeroiseKey_rlen (s : State) : (zeroiseKey s).rlen = s.rlen := rfl
@[simp] theorem zeroiseKey_ab (s : State) : (zeroiseKey s).ab = s.ab := rfl
@[simp] theorem zeroiseKey_rb (s : State) : (zeroiseKey s).rb = s.rb := rfl
@[simp] theorem zeroiseKey_stage (s : State) : (zeroiseKey s).stage = s.stage := rfl
@[simp] theorem zeroiseKey_k (s : State) : (zeroiseKey s).k = 0 := rfl
@[simp] theorem zeroiseKey_p (s : State) : (zeroiseKey s).p = 0 := rfl
@[simp] theorem zeroiseKey_ks (s : State) : (zeroiseKey s).ks = KeySchedule.zero := rfl
@[simp] theorem zeroiseKey_scratch (s : State) : (zeroiseKey s).scratch = s.scratch := rfl
@[simp] theorem zeroiseKey_base (s : State) : (zeroiseKey s).base = s.base := rfl
@[simp] theorem zeroiseKey_hasU32 (s : State) : (zeroiseKey s).hasU32 = s.hasU32 := rfl
@[simp] theorem zeroiseKey_host (s : State) : (zeroiseKey s).host = s.host := rfl
@[simp] theorem zeroiseKey_seen (s : State) : (zeroiseKey s).seen = s.seen := rfl
@[simp] theorem zeroiseKey_left (s : State) : (zeroiseKey s).left = s.left := rfl
@[simp] theorem zeroiseKey_draws (s : State) : (zeroiseKey s).draws = s.draws := rfl

@[simp] theorem zeroiseStage_busy (s : State) : (zeroiseStage s).busy = s.busy := rfl
@[simp] theorem zeroiseStage_cur (s : State) : (zeroiseStage s).cur = s.cur := rfl
@[simp] theorem zeroiseStage_keyed (s : State) : (zeroiseStage s).keyed = s.keyed := rfl
@[simp] theorem zeroiseStage_ovr (s : State) : (zeroiseStage s).ovr = s.ovr := rfl
@[simp] theorem zeroiseStage_err (s : State) : (zeroiseStage s).err = s.err := rfl
@[simp] theorem zeroiseStage_rlen (s : State) : (zeroiseStage s).rlen = s.rlen := rfl
@[simp] theorem zeroiseStage_ab (s : State) : (zeroiseStage s).ab = s.ab := rfl
@[simp] theorem zeroiseStage_rb (s : State) : (zeroiseStage s).rb = s.rb := rfl
@[simp] theorem zeroiseStage_stage (s : State) : (zeroiseStage s).stage = 0 := rfl
@[simp] theorem zeroiseStage_k (s : State) : (zeroiseStage s).k = s.k := rfl
@[simp] theorem zeroiseStage_p (s : State) : (zeroiseStage s).p = s.p := rfl
@[simp] theorem zeroiseStage_ks (s : State) : (zeroiseStage s).ks = s.ks := rfl
@[simp] theorem zeroiseStage_scratch (s : State) : (zeroiseStage s).scratch = s.scratch := rfl
@[simp] theorem zeroiseStage_base (s : State) : (zeroiseStage s).base = s.base := rfl
@[simp] theorem zeroiseStage_hasU32 (s : State) : (zeroiseStage s).hasU32 = s.hasU32 := rfl
@[simp] theorem zeroiseStage_host (s : State) : (zeroiseStage s).host = s.host := rfl
@[simp] theorem zeroiseStage_seen (s : State) : (zeroiseStage s).seen = s.seen := rfl
@[simp] theorem zeroiseStage_left (s : State) : (zeroiseStage s).left = s.left := rfl
@[simp] theorem zeroiseStage_draws (s : State) : (zeroiseStage s).draws = s.draws := rfl

@[simp] theorem loadKey_busy (s : State) : (loadKey s).busy = s.busy := rfl
@[simp] theorem loadKey_cur (s : State) : (loadKey s).cur = s.cur := rfl
@[simp] theorem loadKey_keyed (s : State) : (loadKey s).keyed = true := rfl
@[simp] theorem loadKey_ovr (s : State) : (loadKey s).ovr = s.ovr := rfl
@[simp] theorem loadKey_err (s : State) : (loadKey s).err = s.err := rfl
@[simp] theorem loadKey_rlen (s : State) : (loadKey s).rlen = s.rlen := rfl
@[simp] theorem loadKey_ab (s : State) : (loadKey s).ab = s.ab := rfl
@[simp] theorem loadKey_rb (s : State) : (loadKey s).rb = s.rb := rfl
@[simp] theorem loadKey_stage (s : State) : (loadKey s).stage = s.stage := rfl
@[simp] theorem loadKey_k (s : State) : (loadKey s).k = stageKey s.stage := rfl
@[simp] theorem loadKey_p (s : State) : (loadKey s).p = aes (stageKey s.stage) (stagePad s.stage) := rfl
@[simp] theorem loadKey_ks (s : State) : (loadKey s).ks = keyExpansion (stageKey s.stage) := rfl
@[simp] theorem loadKey_scratch (s : State) : (loadKey s).scratch = s.scratch := rfl
@[simp] theorem loadKey_base (s : State) : (loadKey s).base = s.base := rfl
@[simp] theorem loadKey_hasU32 (s : State) : (loadKey s).hasU32 = s.hasU32 := rfl
@[simp] theorem loadKey_host (s : State) : (loadKey s).host = s.host := rfl
@[simp] theorem loadKey_seen (s : State) : (loadKey s).seen = s.seen := rfl
@[simp] theorem loadKey_left (s : State) : (loadKey s).left = s.left := rfl
@[simp] theorem loadKey_draws (s : State) : (loadKey s).draws = s.draws := rfl

@[simp] theorem anonymise_busy (l : Nat) (s : State) : (anonymise l s).busy = s.busy := rfl
@[simp] theorem anonymise_cur (l : Nat) (s : State) : (anonymise l s).cur = s.cur := rfl
@[simp] theorem anonymise_keyed (l : Nat) (s : State) : (anonymise l s).keyed = s.keyed := rfl
@[simp] theorem anonymise_ovr (l : Nat) (s : State) : (anonymise l s).ovr = s.ovr := rfl
@[simp] theorem anonymise_err (l : Nat) (s : State) : (anonymise l s).err = s.err := rfl
@[simp] theorem anonymise_rlen (l : Nat) (s : State) : (anonymise l s).rlen = BitVec.ofNat 5 l := rfl
@[simp] theorem anonymise_ab (l : Nat) (s : State) : (anonymise l s).ab = s.ab := rfl
@[simp] theorem anonymise_rb (l : Nat) (s : State) : (anonymise l s).rb = storeBytes s.rb l (fwd s.k s.p (keepBytes l s.ab) l) := rfl
@[simp] theorem anonymise_stage (l : Nat) (s : State) : (anonymise l s).stage = s.stage := rfl
@[simp] theorem anonymise_k (l : Nat) (s : State) : (anonymise l s).k = s.k := rfl
@[simp] theorem anonymise_p (l : Nat) (s : State) : (anonymise l s).p = s.p := rfl
@[simp] theorem anonymise_ks (l : Nat) (s : State) : (anonymise l s).ks = s.ks := rfl
@[simp] theorem anonymise_scratch (l : Nat) (s : State) : (anonymise l s).scratch = forwardScratch s.k s.p (keepBytes l s.ab) l := rfl
@[simp] theorem anonymise_base (l : Nat) (s : State) : (anonymise l s).base = s.base := rfl
@[simp] theorem anonymise_hasU32 (l : Nat) (s : State) : (anonymise l s).hasU32 = s.hasU32 := rfl
@[simp] theorem anonymise_host (l : Nat) (s : State) : (anonymise l s).host = s.host := rfl
@[simp] theorem anonymise_seen (l : Nat) (s : State) : (anonymise l s).seen = s.seen := rfl
@[simp] theorem anonymise_left (l : Nat) (s : State) : (anonymise l s).left = s.left := rfl
@[simp] theorem anonymise_draws (l : Nat) (s : State) : (anonymise l s).draws = s.draws := rfl

@[simp] theorem deanonymise_busy (l : Nat) (s : State) : (deanonymise l s).busy = s.busy := rfl
@[simp] theorem deanonymise_cur (l : Nat) (s : State) : (deanonymise l s).cur = s.cur := rfl
@[simp] theorem deanonymise_keyed (l : Nat) (s : State) : (deanonymise l s).keyed = s.keyed := rfl
@[simp] theorem deanonymise_ovr (l : Nat) (s : State) : (deanonymise l s).ovr = s.ovr := rfl
@[simp] theorem deanonymise_err (l : Nat) (s : State) : (deanonymise l s).err = s.err := rfl
@[simp] theorem deanonymise_rlen (l : Nat) (s : State) : (deanonymise l s).rlen = BitVec.ofNat 5 l := rfl
@[simp] theorem deanonymise_ab (l : Nat) (s : State) : (deanonymise l s).ab = s.ab := rfl
@[simp] theorem deanonymise_rb (l : Nat) (s : State) : (deanonymise l s).rb = storeBytes s.rb l (inv s.k s.p (keepBytes l s.ab) l) := rfl
@[simp] theorem deanonymise_stage (l : Nat) (s : State) : (deanonymise l s).stage = s.stage := rfl
@[simp] theorem deanonymise_k (l : Nat) (s : State) : (deanonymise l s).k = s.k := rfl
@[simp] theorem deanonymise_p (l : Nat) (s : State) : (deanonymise l s).p = s.p := rfl
@[simp] theorem deanonymise_ks (l : Nat) (s : State) : (deanonymise l s).ks = s.ks := rfl
@[simp] theorem deanonymise_scratch (l : Nat) (s : State) : (deanonymise l s).scratch = inverseScratch s.k s.p (keepBytes l s.ab) l := rfl
@[simp] theorem deanonymise_base (l : Nat) (s : State) : (deanonymise l s).base = s.base := rfl
@[simp] theorem deanonymise_hasU32 (l : Nat) (s : State) : (deanonymise l s).hasU32 = s.hasU32 := rfl
@[simp] theorem deanonymise_host (l : Nat) (s : State) : (deanonymise l s).host = s.host := rfl
@[simp] theorem deanonymise_seen (l : Nat) (s : State) : (deanonymise l s).seen = s.seen := rfl
@[simp] theorem deanonymise_left (l : Nat) (s : State) : (deanonymise l s).left = s.left := rfl
@[simp] theorem deanonymise_draws (l : Nat) (s : State) : (deanonymise l s).draws = s.draws := rfl

@[simp] theorem recordRead_busy (r : Reg) (s : State) : (recordRead r s).busy = s.busy := rfl
@[simp] theorem recordRead_cur (r : Reg) (s : State) : (recordRead r s).cur = s.cur := rfl
@[simp] theorem recordRead_keyed (r : Reg) (s : State) : (recordRead r s).keyed = s.keyed := rfl
@[simp] theorem recordRead_ovr (r : Reg) (s : State) : (recordRead r s).ovr = s.ovr := rfl
@[simp] theorem recordRead_err (r : Reg) (s : State) : (recordRead r s).err = s.err := rfl
@[simp] theorem recordRead_rlen (r : Reg) (s : State) : (recordRead r s).rlen = s.rlen := rfl
@[simp] theorem recordRead_ab (r : Reg) (s : State) : (recordRead r s).ab = s.ab := rfl
@[simp] theorem recordRead_rb (r : Reg) (s : State) : (recordRead r s).rb = s.rb := rfl
@[simp] theorem recordRead_stage (r : Reg) (s : State) : (recordRead r s).stage = s.stage := rfl
@[simp] theorem recordRead_k (r : Reg) (s : State) : (recordRead r s).k = s.k := rfl
@[simp] theorem recordRead_p (r : Reg) (s : State) : (recordRead r s).p = s.p := rfl
@[simp] theorem recordRead_ks (r : Reg) (s : State) : (recordRead r s).ks = s.ks := rfl
@[simp] theorem recordRead_scratch (r : Reg) (s : State) : (recordRead r s).scratch = s.scratch := rfl
@[simp] theorem recordRead_base (r : Reg) (s : State) : (recordRead r s).base = s.base := rfl
@[simp] theorem recordRead_hasU32 (r : Reg) (s : State) : (recordRead r s).hasU32 = s.hasU32 := rfl
@[simp] theorem recordRead_host (r : Reg) (s : State) : (recordRead r s).host = s.host := rfl
@[simp] theorem recordRead_seen (r : Reg) (s : State) : (recordRead r s).seen = readReg r s :: s.seen := rfl
@[simp] theorem recordRead_left (r : Reg) (s : State) : (recordRead r s).left = s.left := rfl
@[simp] theorem recordRead_draws (r : Reg) (s : State) : (recordRead r s).draws = s.draws + 1 := rfl

@[simp] theorem takeOp_busy (rest : List HostOp) (s : State) : (takeOp rest s).busy = s.busy := rfl
@[simp] theorem takeOp_cur (rest : List HostOp) (s : State) : (takeOp rest s).cur = s.cur := rfl
@[simp] theorem takeOp_keyed (rest : List HostOp) (s : State) : (takeOp rest s).keyed = s.keyed := rfl
@[simp] theorem takeOp_ovr (rest : List HostOp) (s : State) : (takeOp rest s).ovr = s.ovr := rfl
@[simp] theorem takeOp_err (rest : List HostOp) (s : State) : (takeOp rest s).err = s.err := rfl
@[simp] theorem takeOp_rlen (rest : List HostOp) (s : State) : (takeOp rest s).rlen = s.rlen := rfl
@[simp] theorem takeOp_ab (rest : List HostOp) (s : State) : (takeOp rest s).ab = s.ab := rfl
@[simp] theorem takeOp_rb (rest : List HostOp) (s : State) : (takeOp rest s).rb = s.rb := rfl
@[simp] theorem takeOp_stage (rest : List HostOp) (s : State) : (takeOp rest s).stage = s.stage := rfl
@[simp] theorem takeOp_k (rest : List HostOp) (s : State) : (takeOp rest s).k = s.k := rfl
@[simp] theorem takeOp_p (rest : List HostOp) (s : State) : (takeOp rest s).p = s.p := rfl
@[simp] theorem takeOp_ks (rest : List HostOp) (s : State) : (takeOp rest s).ks = s.ks := rfl
@[simp] theorem takeOp_scratch (rest : List HostOp) (s : State) : (takeOp rest s).scratch = s.scratch := rfl
@[simp] theorem takeOp_base (rest : List HostOp) (s : State) : (takeOp rest s).base = s.base := rfl
@[simp] theorem takeOp_hasU32 (rest : List HostOp) (s : State) : (takeOp rest s).hasU32 = s.hasU32 := rfl
@[simp] theorem takeOp_host (rest : List HostOp) (s : State) : (takeOp rest s).host = rest := rfl
@[simp] theorem takeOp_seen (rest : List HostOp) (s : State) : (takeOp rest s).seen = s.seen := rfl
@[simp] theorem takeOp_left (rest : List HostOp) (s : State) : (takeOp rest s).left = s.left - 1 := rfl
@[simp] theorem takeOp_draws (rest : List HostOp) (s : State) : (takeOp rest s).draws = s.draws := rfl

@[simp] theorem placeCommand_busy (w : Word) (s : State) : (placeCommand w s).busy = true := rfl
@[simp] theorem placeCommand_cur (w : Word) (s : State) : (placeCommand w s).cur = w := rfl
@[simp] theorem placeCommand_keyed (w : Word) (s : State) : (placeCommand w s).keyed = s.keyed := rfl
@[simp] theorem placeCommand_ovr (w : Word) (s : State) : (placeCommand w s).ovr = s.ovr := rfl
@[simp] theorem placeCommand_err (w : Word) (s : State) : (placeCommand w s).err = s.err := rfl
@[simp] theorem placeCommand_rlen (w : Word) (s : State) : (placeCommand w s).rlen = s.rlen := rfl
@[simp] theorem placeCommand_ab (w : Word) (s : State) : (placeCommand w s).ab = s.ab := rfl
@[simp] theorem placeCommand_rb (w : Word) (s : State) : (placeCommand w s).rb = s.rb := rfl
@[simp] theorem placeCommand_stage (w : Word) (s : State) : (placeCommand w s).stage = s.stage := rfl
@[simp] theorem placeCommand_k (w : Word) (s : State) : (placeCommand w s).k = s.k := rfl
@[simp] theorem placeCommand_p (w : Word) (s : State) : (placeCommand w s).p = s.p := rfl
@[simp] theorem placeCommand_ks (w : Word) (s : State) : (placeCommand w s).ks = s.ks := rfl
@[simp] theorem placeCommand_scratch (w : Word) (s : State) : (placeCommand w s).scratch = s.scratch := rfl
@[simp] theorem placeCommand_base (w : Word) (s : State) : (placeCommand w s).base = s.base := rfl
@[simp] theorem placeCommand_hasU32 (w : Word) (s : State) : (placeCommand w s).hasU32 = s.hasU32 := rfl
@[simp] theorem placeCommand_host (w : Word) (s : State) : (placeCommand w s).host = s.host := rfl
@[simp] theorem placeCommand_seen (w : Word) (s : State) : (placeCommand w s).seen = s.seen := rfl
@[simp] theorem placeCommand_left (w : Word) (s : State) : (placeCommand w s).left = 0 := rfl
@[simp] theorem placeCommand_draws (w : Word) (s : State) : (placeCommand w s).draws = s.draws := rfl

end Sys2Proof.Laws
end

