-- ==== Sys2Proof/Laws/Ops.lean ====
section
/-! SUPPORT. One lemma per shared operation: everything it can do, said once, to be cited instead of unfolding it. -/

namespace Sys2Proof.Laws

open Sys2Proof.Machine Sys2Proof.Safety

/-! The register window. -/

/-- R75: an access has an offset exactly when it is one aligned word of the window. -/
theorem accessOffset_eq_some {base addr width off : Nat} :
    accessOffset base addr width = some off ↔ LegalAccess base addr width off := by
  unfold accessOffset LegalAccess Config.windowBytes
  constructor
  · intro h
    split at h
    · simp only [Option.some.injEq] at h
      omega
    · cases h
  · rintro ⟨hw, ha, ho, hm⟩
    rw [if_pos (by omega)]
    simp only [Option.some.injEq]
    omega

theorem accessOffset_eq_none {base addr width : Nat} :
    accessOffset base addr width = none ↔ ∀ off, ¬ LegalAccess base addr width off := by
  rw [Option.eq_none_iff_forall_ne_some]
  exact forall_congr' fun off => not_congr accessOffset_eq_some

theorem accessOffset_legal {base off : Nat} (ho : off < 0x100) (hm : off % 4 = 0) :
    accessOffset base (base + off) 4 = some off :=
  accessOffset_eq_some.mpr ⟨rfl, rfl, ho, hm⟩

theorem regAt_cmd : regAt 0x000 = .cmd := rfl

theorem regAt_status : regAt 0x004 = .status := rfl

theorem regAt_cap : regAt 0x008 = .cap := rfl

theorem regAt_addr {j : Nat} (hj : j < 4) : regAt (0x010 + 4 * j) = .addr j := by
  interval_cases j <;> rfl

theorem regAt_res {j : Nat} (hj : j < 4) : regAt (0x020 + 4 * j) = .res j := by
  interval_cases j <;> rfl

theorem regAt_secret {j : Nat} (hj : j < 8) : regAt (0x040 + 4 * j) = .secret j := by
  interval_cases j <;> rfl

/-- R74: what R31 does not list is reserved. -/
theorem regAt_reserved {off : Nat} (ho : off < 0x100) (hm : off % 4 = 0)
    (h : off = 0x00C ∨ (0x030 ≤ off ∧ off ≤ 0x03C) ∨ 0x060 ≤ off) : regAt off = .reserved := by
  obtain ⟨q, rfl⟩ : ∃ q, off = 4 * q := ⟨off / 4, by omega⟩
  have hq : q < 64 := by omega
  interval_cases q <;> first | rfl | omega

/-- R31: an aligned offset of the window is one of the map's registers, or reserved. -/
theorem regAt_cases {off : Nat} (ho : off < 0x100) (hm : off % 4 = 0) :
    (off = 0 ∧ regAt off = .cmd) ∨ (off = 4 ∧ regAt off = .status) ∨ (off = 8 ∧ regAt off = .cap) ∨
    (∃ j, j < 4 ∧ off = 0x010 + 4 * j ∧ regAt off = .addr j) ∨
    (∃ j, j < 4 ∧ off = 0x020 + 4 * j ∧ regAt off = .res j) ∨
    (∃ j, j < 8 ∧ off = 0x040 + 4 * j ∧ regAt off = .secret j) ∨
    ((off = 0x00C ∨ (0x030 ≤ off ∧ off ≤ 0x03C) ∨ 0x060 ≤ off) ∧ regAt off = .reserved) := by
  by_cases hr : off = 0x00C ∨ (0x030 ≤ off ∧ off ≤ 0x03C) ∨ 0x060 ≤ off
  · exact .inr (.inr (.inr (.inr (.inr (.inr ⟨hr, regAt_reserved ho hm hr⟩)))))
  · by_cases h1 : 0x040 ≤ off
    · have he : off = 0x040 + 4 * ((off - 0x040) / 4) := by omega
      refine .inr (.inr (.inr (.inr (.inr (.inl ⟨(off - 0x040) / 4, by omega, he, ?_⟩)))))
      rw [he, regAt_secret (by omega), ← he]
    · by_cases h2 : 0x020 ≤ off
      · have he : off = 0x020 + 4 * ((off - 0x020) / 4) := by omega
        refine .inr (.inr (.inr (.inr (.inl ⟨(off - 0x020) / 4, by omega, he, ?_⟩))))
        rw [he, regAt_res (by omega), ← he]
      · by_cases h3 : 0x010 ≤ off
        · have he : off = 0x010 + 4 * ((off - 0x010) / 4) := by omega
          refine .inr (.inr (.inr (.inl ⟨(off - 0x010) / 4, by omega, he, ?_⟩)))
          rw [he, regAt_addr (by omega), ← he]
        · obtain rfl | rfl | rfl : off = 0 ∨ off = 4 ∨ off = 8 := by omega
          · exact .inl ⟨rfl, rfl⟩
          · exact .inr (.inl ⟨rfl, rfl⟩)
          · exact .inr (.inr (.inl ⟨rfl, rfl⟩))

/-- R45, R50, R37, R39: what a host write can do. -/
theorem writeReg_cases (r : Reg) (v : Word) (s : State) :
    (s.busy = true ∧ guarded r = true ∧ writeReg r v s = ignoreWrite s) ∨
    (s.busy = false ∧ r = .cmd ∧ writeReg r v s = acceptCommand v s) ∨
    (s.busy = false ∧ (∃ j, r = .addr j ∧ writeReg r v s = { s with ab := setWord s.ab j v })) ∨
    (s.busy = false ∧ (∃ j, r = .secret j ∧ writeReg r v s = { s with stage := setStageWord s.stage j v })) ∨
    (guarded r = false ∧ writeReg r v s = s) := by
  cases hb : s.busy <;> cases r <;> simp [writeReg, guarded, hb]

theorem writeReg_unguarded {r : Reg} (h : guarded r = false) (v : Word) (s : State) : writeReg r v s = s := by
  cases r <;> first | rfl | cases h

theorem writeReg_busy {r : Reg} {s : State} (hb : s.busy = true) (hg : guarded r = true) (v : Word) :
    writeReg r v s = ignoreWrite s := by
  cases r <;> simp_all [writeReg, guarded]

/-! ZEROED and STATUS. -/

/-- R46. -/
theorem zeroed_iff {s : State} :
    zeroed s = true ↔ s.k = 0 ∧ s.p = 0 ∧ s.ks = KeySchedule.zero ∧ s.stage = 0 ∧ s.scratch = Scratch.zero := by
  simp [zeroed, and_assoc]

/-- R33: the fields of a STATUS word, each at its place. -/
theorem packStatus_fields (rlen : BitVec 5) (err : BitVec 4) (o z k b : Bool) :
    (packStatus rlen err o z k b).getLsbD 0 = b ∧ (packStatus rlen err o z k b).getLsbD 1 = k ∧
    (packStatus rlen err o z k b).getLsbD 2 = z ∧ (packStatus rlen err o z k b).getLsbD 3 = o ∧
    (packStatus rlen err o z k b).extractLsb' 4 4 = err ∧ (packStatus rlen err o z k b).extractLsb' 8 5 = rlen ∧
    (packStatus rlen err o z k b).extractLsb' 13 19 = 0 := by
  refine ⟨?_, ?_, ?_, ?_, ?_, ?_, ?_⟩
  case refine_5 | refine_6 | refine_7 =>
    apply BitVec.eq_of_getLsbD_eq
    intro i hi
    simp only [packStatus, BitVec.getLsbD_extractLsb', BitVec.getLsbD_append]
    simp (disch := omega) only [if_neg, if_pos, decide_eq_true, Bool.true_and]
    congr 1
    omega
  all_goals
    simp only [packStatus, BitVec.getLsbD_append]
    simp

/-! The operands. -/

/-- R142: every way `Resolve` succeeds. -/
theorem resolve_ok_cases {len l : Nat} {fam : Family} (h : resolve len fam = .ok l) :
    (fam = .raw ∧ 1 ≤ len ∧ l = min len 16) ∨ (fam = .ipv4 ∧ 4 ≤ len ∧ l = 4) ∨
    (fam = .ipv6 ∧ 16 ≤ len ∧ l = 16) := by
  cases fam with
  | other c => cases h
  | raw =>
    by_cases h0 : len = 0
    · simp [resolve, h0] at h
    · simp [resolve, h0, Config.maxL] at h
      exact .inl ⟨rfl, by omega, h.symm⟩
  | ipv4 =>
    by_cases h0 : len < 4
    · simp [resolve, h0, Config.ipv4L] at h
    · simp [resolve, h0, Config.ipv4L] at h
      exact .inr (.inl ⟨rfl, by omega, h.symm⟩)
  | ipv6 =>
    by_cases h0 : len < 16
    · simp [resolve, h0, Config.ipv6L] at h
    · simp [resolve, h0, Config.ipv6L] at h
      exact .inr (.inr ⟨rfl, by omega, h.symm⟩)

/-- R142: the effective length is 1 … 16. -/
theorem resolve_ok_range {len l : Nat} {fam : Family} (h : resolve len fam = .ok l) : 1 ≤ l ∧ l ≤ 16 := by
  rcases resolve_ok_cases h with ⟨_, _, rfl⟩ | ⟨_, _, rfl⟩ | ⟨_, _, rfl⟩ <;> omega

/-- R142: every way `Resolve` fails. -/
theorem resolve_error_cases {len : Nat} {fam : Family} {e : ErrorKind} (h : resolve len fam = .error e) :
    (e = .invalidFamily ∧ ∃ c, fam = .other c) ∨
    (e = .invalidInput ∧ ((fam = .raw ∧ len = 0) ∨ (fam = .ipv4 ∧ len < 4) ∨ (fam = .ipv6 ∧ len < 16))) := by
  cases fam with
  | other c => exact .inl ⟨(Except.error.inj h).symm, c, rfl⟩
  | raw =>
    by_cases h0 : len = 0 <;> simp [resolve, h0] at h
    simp [← h, h0]
  | ipv4 =>
    by_cases h0 : len < 4 <;> simp [resolve, h0, Config.ipv4L] at h
    simp [← h, h0]
  | ipv6 =>
    by_cases h0 : len < 16 <;> simp [resolve, h0, Config.ipv6L] at h
    simp [← h, h0]

/-- R120, R124: the ASCII check fails exactly when a staged byte has its bit 7 set. -/
theorem stageNotAscii_iff {st : Secret} :
    stageNotAscii st = true ↔ ∃ i, i < 32 ∧ (stageByte st i).getLsbD 7 = true := by
  simp [stageNotAscii, Config.secretBytes]

/-! The bodies of the commands. -/

/-- What the body of SETUP does (R120). -/
theorem setupBody_cases (slen : Nat) (asc : Bool) (s : State) :
    ((slen < 32 ∨ (asc = true ∧ stageNotAscii s.stage = true)) ∧ setupBody slen asc s = fail .invalidKey s) ∨
    ((32 ≤ slen ∧ ¬ (asc = true ∧ stageNotAscii s.stage = true)) ∧ setupBody slen asc s = loadKey s) := by
  unfold setupBody Config.secretBytes
  by_cases h1 : slen < 32
  · simp [h1]
  · by_cases h2 : asc = true ∧ stageNotAscii s.stage = true
    · simp [h1, h2]
    · exact .inr ⟨⟨by omega, h2⟩, by rw [if_neg h1, if_neg h2]⟩

/-- What ANON does (R146). -/
theorem execAnon_cases (len : Nat) (fam : Family) (s : State) :
    (s.keyed = false ∧ execAnon len fam s = .next (fail .disposed s)) ∨
    (s.keyed = true ∧ ∃ e, resolve len fam = .error e ∧ execAnon len fam s = .next (fail e s)) ∨
    (s.keyed = true ∧ ∃ l, resolve len fam = .ok l ∧ execAnon len fam s = .next (anonymise l s)) := by
  unfold execAnon
  cases hk : s.keyed <;> cases hr : resolve len fam <;> simp

/-- What DEANON does (R170). -/
theorem execDeanon_cases (len : Nat) (fam : Family) (s : State) :
    (s.keyed = false ∧ execDeanon len fam s = .next (fail .disposed s)) ∨
    (s.keyed = true ∧ ∃ e, resolve len fam = .error e ∧ execDeanon len fam s = .next (fail e s)) ∨
    (s.keyed = true ∧ ∃ l, resolve len fam = .ok l ∧ execDeanon len fam s = .next (deanonymise l s)) := by
  unfold execDeanon
  cases hk : s.keyed <;> cases hr : resolve len fam <;> simp

/-- What ANON_U32 does (R150). -/
theorem execAnonU32_cases (s : State) :
    (s.keyed = false ∧ execAnonU32 s = .next (fail .disposed s)) ∨
    (s.keyed = true ∧ execAnonU32 s = .next (anonymiseU32 s)) := by
  unfold execAnonU32
  cases hk : s.keyed <;> simp

/-! The agents. -/

/-- The complete step around a command's body that ends in a next state (R52). -/
theorem completeStep_of_next {s t : State} (h : runCommand (startCommand s) = .next t) :
    completeStep s = .next (finishCommand t) := by
  rw [completeStep, h]

theorem step_of_due {s : State} (h : engineDue s = true) : step s = completeStep s := by
  rw [step, if_pos h]

theorem step_of_host {s : State} {op : HostOp} {rest : List HostOp} (h : engineDue s = false)
    (hh : s.host = op :: rest) : step s = hostOp op (takeOp rest s) := by
  rw [step, h, hostStep, hh]
  rfl

/-- What one host operation can do (R263). -/
theorem hostOp_cases (op : HostOp) (s : State) :
    (∃ addr width off, op = .read addr width ∧ LegalAccess s.base addr width off ∧
      hostOp op s = .next (recordRead (regAt off) s)) ∨
    (∃ addr width v off, op = .write addr width v ∧ LegalAccess s.base addr width off ∧
      hostOp op s = .next (writeReg (regAt off) v s)) ∨
    (∃ addr width, (op = .read addr width ∨ ∃ v, op = .write addr width v) ∧
      (∀ off, ¬ LegalAccess s.base addr width off) ∧ hostOp op s = .fault (.busError addr width)) ∨
    (op = .wait ∧ hostOp op s = .next (hostPoll s)) ∨
    (op = .reset ∧ hostOp op s = .next (resetBlock s)) := by
  cases op with
  | read addr width =>
    cases h : accessOffset s.base addr width with
    | none => exact .inr (.inr (.inl ⟨addr, width, .inl rfl, accessOffset_eq_none.mp h, by simp [hostOp, hostRead, h]⟩))
    | some off => exact .inl ⟨addr, width, off, rfl, accessOffset_eq_some.mp h, by simp [hostOp, hostRead, h]⟩
  | write addr width v =>
    cases h : accessOffset s.base addr width with
    | none =>
      exact .inr (.inr (.inl ⟨addr, width, .inr ⟨v, rfl⟩, accessOffset_eq_none.mp h, by simp [hostOp, hostWrite, h]⟩))
    | some off =>
      exact .inr (.inl ⟨addr, width, v, off, rfl, accessOffset_eq_some.mp h, by simp [hostOp, hostWrite, h]⟩)
  | wait => exact .inr (.inr (.inr (.inl ⟨rfl, rfl⟩)))
  | reset => exact .inr (.inr (.inr (.inr ⟨rfl, rfl⟩)))

/-- What one poll of WAIT does (R109): it reads STATUS, and waits on exactly while BUSY = 1. -/
theorem hostPoll_cases (s : State) :
    (s.busy = true ∧ hostPoll s = { recordRead .status s with host := .wait :: s.host }) ∨
    (s.busy = false ∧ hostPoll s = recordRead .status s) := by
  have hbit : (readReg .status s).getLsbD 0 = s.busy := by
    cases hb : s.busy <;> simp only [readReg, statusWord, hb] <;> exact (packStatus_fields _ _ _ _ _ _).1
  unfold hostPoll
  rw [hbit]
  cases s.busy <;> simp

end Sys2Proof.Laws
end

