-- ==== Sys2Proof/Laws/PerInstr.lean ====
section
/-! SUPPORT. A law of every command as syntax: its command word lies in its own row of the opcode map (30_encoding.md
R102: "a word `w` selects the row iff `(w & mask) = match`"), one lemma a constructor. -/

namespace Sys2Proof.Laws.OpcodeRow

/-- The command word selects its own row of R102. -/
def Statement (i : Instr) : Prop := encode i &&& rowMask i = rowMatch i

theorem setup (slen : Nat) (asc : Bool) : Statement (.setup slen asc) := by
  apply BitVec.eq_of_getLsbD_eq
  intro i hi
  simp only [encode, rowMask, rowMatch, BitVec.getLsbD_and, BitVec.getLsbD_append]
  interval_cases i <;> simp

theorem anon (len : Nat) (fam : Family) : Statement (.anon len fam) := by
  apply BitVec.eq_of_getLsbD_eq
  intro i hi
  simp only [encode, rowMask, rowMatch, BitVec.getLsbD_and, BitVec.getLsbD_append]
  interval_cases i <;> simp

theorem deanon (len : Nat) (fam : Family) : Statement (.deanon len fam) := by
  apply BitVec.eq_of_getLsbD_eq
  intro i hi
  simp only [encode, rowMask, rowMatch, BitVec.getLsbD_and, BitVec.getLsbD_append]
  interval_cases i <;> simp

theorem release : Statement .release := by unfold Statement; decide

theorem anonU32 : Statement .anonU32 := by unfold Statement; decide

end Sys2Proof.Laws.OpcodeRow
end

