-- ==== Sys2Proof/Laws/Step.lean ====
section
/-! SUPPORT. What a step can do, said once: the engine's step is a decoded body or an illegal word between the two
halves of the complete step; the host's step is one host operation. -/

namespace Sys2Proof.Laws

open Sys2Proof.Machine Sys2Proof.Safety

/-- Every body ends in a next state and leaves AB, OVR, the straps and the model's own fields alone (R52, R37). -/
theorem exec_next (i : Instr) (s : State) : ∃ t, exec i s = .next t ∧
    t.ab = s.ab ∧ t.ovr = s.ovr ∧ t.base = s.base ∧ t.hasU32 = s.hasU32 ∧ t.host = s.host ∧ t.seen = s.seen ∧
    t.draws = s.draws := by
  cases i with
  | setup n a =>
    simp only [exec, execSetup]
    rcases setupBody_cases n a (zeroiseKey s) with ⟨_, e⟩ | ⟨_, e⟩ <;> rw [e] <;>
      exact ⟨_, rfl, rfl, rfl, rfl, rfl, rfl, rfl, rfl⟩
  | anon n f =>
    simp only [exec]
    rcases execAnon_cases n f s with ⟨_, e⟩ | ⟨_, x, _, e⟩ | ⟨_, x, _, e⟩ <;> rw [e] <;>
      exact ⟨_, rfl, rfl, rfl, rfl, rfl, rfl, rfl, rfl⟩
  | deanon n f =>
    simp only [exec]
    rcases execDeanon_cases n f s with ⟨_, e⟩ | ⟨_, x, _, e⟩ | ⟨_, x, _, e⟩ <;> rw [e] <;>
      exact ⟨_, rfl, rfl, rfl, rfl, rfl, rfl, rfl, rfl⟩
  | release => exact ⟨_, rfl, rfl, rfl, rfl, rfl, rfl, rfl, rfl⟩
  | anonU32 =>
    simp only [exec]
    rcases execAnonU32_cases s with ⟨_, e⟩ | ⟨_, e⟩ <;> rw [e] <;>
      exact ⟨_, rfl, rfl, rfl, rfl, rfl, rfl, rfl, rfl⟩

/-- R247: the codes a body can record, and when. -/
theorem exec_err_cases {i : Instr} {s t : State} (h : exec i s = .next t) :
    t.err = s.err ∨
    (t.err = 1 ∧ ∃ n a, i = .setup n a ∧ (n < 32 ∨ (a = true ∧ stageNotAscii s.stage = true))) ∨
    (t.err = 4 ∧ s.keyed = false ∧ ((∃ n f, i = .anon n f) ∨ (∃ n f, i = .deanon n f) ∨ i = .anonU32)) ∨
    (t.err = 3 ∧ s.keyed = true ∧ ∃ n c, i = .anon n (.other c) ∨ i = .deanon n (.other c)) ∨
    (t.err = 2 ∧ s.keyed = true ∧ ∃ n f, (i = .anon n f ∨ i = .deanon n f) ∧
      ((f = .raw ∧ n = 0) ∨ (f = .ipv4 ∧ n < 4) ∨ (f = .ipv6 ∧ n < 16))) := by
  cases i with
  | setup n a =>
    simp only [exec, execSetup] at h
    rcases setupBody_cases n a (zeroiseKey s) with ⟨hc, e⟩ | ⟨_, e⟩ <;> rw [e] at h <;> cases h
    · exact .inr (.inl ⟨rfl, n, a, rfl, hc⟩)
    · exact .inl rfl
  | anon n f =>
    simp only [exec] at h
    rcases execAnon_cases n f s with ⟨hk, e⟩ | ⟨hk, x, hx, e⟩ | ⟨_, x, _, e⟩ <;> rw [e] at h <;> cases h
    · exact .inr (.inr (.inl ⟨rfl, hk, .inl ⟨n, f, rfl⟩⟩))
    · rcases resolve_error_cases hx with ⟨rfl, c, rfl⟩ | ⟨rfl, hc⟩
      · exact .inr (.inr (.inr (.inl ⟨rfl, hk, n, c, .inl rfl⟩)))
      · exact .inr (.inr (.inr (.inr ⟨rfl, hk, n, f, .inl rfl, hc⟩)))
    · exact .inl rfl
  | deanon n f =>
    simp only [exec] at h
    rcases execDeanon_cases n f s with ⟨hk, e⟩ | ⟨hk, x, hx, e⟩ | ⟨_, x, _, e⟩ <;> rw [e] at h <;> cases h
    · exact .inr (.inr (.inl ⟨rfl, hk, .inr (.inl ⟨n, f, rfl⟩)⟩))
    · rcases resolve_error_cases hx with ⟨rfl, c, rfl⟩ | ⟨rfl, hc⟩
      · exact .inr (.inr (.inr (.inl ⟨rfl, hk, n, c, .inr rfl⟩)))
      · exact .inr (.inr (.inr (.inr ⟨rfl, hk, n, f, .inr rfl, hc⟩)))
    · exact .inl rfl
  | release => cases h; exact .inl rfl
  | anonU32 =>
    simp only [exec] at h
    rcases execAnonU32_cases s with ⟨hk, e⟩ | ⟨_, e⟩ <;> rw [e] at h <;> cases h
    · exact .inr (.inr (.inl ⟨rfl, hk, .inr (.inr rfl)⟩))
    · exact .inl rfl

theorem engineDue_iff {s : State} : engineDue s = true ↔ s.busy = true ∧ (s.left = 0 ∨ s.host = []) := by
  simp [engineDue]

theorem engineDue_idle {s : State} (h : s.busy = false) : engineDue s = false := by
  simp [engineDue, h]

/-- The engine's step: an illegal word, or a decoded body. -/
theorem step_due_cases {s : State} (h : engineDue s = true) :
    (∃ r, decode s.hasU32 s.cur = .error r ∧
      step s = .next (finishCommand (fail .illegalCommand (startCommand s)))) ∨
    (∃ i t, decode s.hasU32 s.cur = .ok i ∧ exec i (startCommand s) = .next t ∧
      step s = .next (finishCommand t)) := by
  rw [step_of_due h]
  cases hd : decode s.hasU32 s.cur with
  | error r => exact .inl ⟨r, rfl, completeStep_of_next (by simp [runCommand, hd])⟩
  | ok i =>
    obtain ⟨t, ht, _⟩ := exec_next i (startCommand s)
    exact .inr ⟨i, t, rfl, ht, completeStep_of_next (by simp [runCommand, hd, ht])⟩

/-- What a step that ends in a next state was. -/
theorem step_cases {s t : State} (h : step s = .next t) :
    engineDue s = true ∨ (s.host = [] ∧ t = s) ∨
    ∃ op rest, HostTurn s op rest ∧ hostOp op (takeOp rest s) = .next t := by
  cases hd : engineDue s with
  | true => exact .inl rfl
  | false =>
    cases hh : s.host with
    | nil =>
      simp only [step, hd, hostStep, hh, Bool.false_eq_true, if_false, Host.Outcome.next.injEq] at h
      exact .inr (.inl ⟨rfl, h.symm⟩)
    | cons op rest => exact .inr (.inr ⟨op, rest, ⟨hd, hh⟩, by rwa [step_of_host hd hh] at h⟩)

/-- A legal host read. -/
theorem step_read {s : State} {off : Nat} {rest : List HostOp} (h : HostTurn s (.read (s.base + off) 4) rest)
    (ho : off < 0x100) (hm : off % 4 = 0) : step s = .next (recordRead (regAt off) (takeOp rest s)) := by
  rw [step_of_host h.1 h.2]
  simp [hostOp, hostRead, accessOffset_legal ho hm]

/-- A legal host write. -/
theorem step_write {s : State} {off : Nat} {v : Word} {rest : List HostOp}
    (h : HostTurn s (.write (s.base + off) 4 v) rest) (ho : off < 0x100) (hm : off % 4 = 0) :
    step s = .next (writeReg (regAt off) v (takeOp rest s)) := by
  rw [step_of_host h.1 h.2]
  simp [hostOp, hostWrite, accessOffset_legal ho hm]

theorem guardedOffset_range {off : Nat} (h : GuardedOffset off) : off < 0x100 ∧ off % 4 = 0 := by
  rcases h with h | ⟨j, _, h⟩ | ⟨j, _, h⟩ <;> omega

/-- R45's registers are the ones at R45's offsets. -/
theorem guarded_regAt {off : Nat} (ho : off < 0x100) (hm : off % 4 = 0) :
    guarded (regAt off) = true ↔ GuardedOffset off := by
  rcases regAt_cases ho hm with ⟨h, e⟩ | ⟨h, e⟩ | ⟨h, e⟩ | ⟨j, hj, h, e⟩ | ⟨j, hj, h, e⟩ | ⟨j, hj, h, e⟩ | ⟨h, e⟩ <;>
    rw [e] <;> simp only [guarded, true_iff, Bool.false_eq_true, false_iff]
  · exact .inl h
  · rintro (h | ⟨_, _, h⟩ | ⟨_, _, h⟩) <;> omega
  · rintro (h | ⟨_, _, h⟩ | ⟨_, _, h⟩) <;> omega
  · exact .inr (.inl ⟨j, hj, h⟩)
  · rintro (h | ⟨_, _, h⟩ | ⟨_, _, h⟩) <;> omega
  · exact .inr (.inr ⟨j, hj, h⟩)
  · rintro (h | ⟨_, _, h⟩ | ⟨_, _, h⟩) <;> omega

end Sys2Proof.Laws
end

