-- ==== Sys2Proof/Tests/Slice0.lean ====
section
/-! SUPPORT. Tests of one step each, on small states, with values from the spec (R110 and 95_test_vectors.md; the
section is named at each group), and for every obligation with hypotheses one witness that meets them. -/

namespace Sys2Proof.Tests

open Sys2Proof.Machine Sys2Proof.Safety

/-! Helpers. -/

def nextOf : Host.Outcome State Fault Refusal → Option State
  | .next s => some s
  | .fault _ => none
  | .refused _ => none

/-- §1.1: the first half of the reference secret. -/
def refK : Block := 0x1522178d33a4cf80130a5b1649907d10

/-- §1.1: the pad of the reference secret. -/
def refP : Block := 0x8d511496a0446f67a691f2933b1f6735

/-- §1.1: the reference secret. -/
def refSecret : Secret := 0x1522178d33a4cf80130a5b1649907d10d8988f837979652762574c2d2a842202

/-- §1.4: the ASCII secret. -/
def asciiSecret : Secret := 0x6e31646e35656d6663616b6768666f31336e62736a66646b336d62756b383368

/-- A block with the reference secret staged. -/
def staged : State := { State.reset with stage := refSecret }

/-- A block set up with the reference secret, and `ab` in its address buffer. -/
def keyed (ab : Block) : State :=
  { State.reset with keyed := true, k := refK, p := refP, ks := keyExpansion refK, ab := ab }

/-- A block whose host has `ops` to do. -/
def hostHas (ops : List HostOp) (s : State) : State := { s with host := ops }

/-- A command in flight that lets one more host operation pass. -/
def inFlight (w : Word) (s : State) : State := { s with busy := true, cur := w, left := 1 }

/-- STATUS as the host reads it after one step of the engine on the command word `w`. -/
def statusAfter (w : Word) (s : State) : Option Word := (nextOf (step (placeCommand w s))).map (statusWord 0)

/-! Well-formedness: each check refuses an ill-formed command. -/

theorem test_wf_refuses_slen_64 : (Instr.setup 64 false).wf = false := by decide

theorem test_wf_refuses_anon_len_32 : (Instr.anon 32 .raw).wf = false := by decide

theorem test_wf_refuses_deanon_len_32 : (Instr.deanon 32 .ipv6).wf = false := by decide

theorem test_wf_refuses_named_family_as_other : (Instr.anon 4 (.other 2)).wf = false := by decide

theorem test_wf_refuses_family_code_8 : (Instr.deanon 4 (.other 8)).wf = false := by decide

theorem test_absent_anonU32_is_not_present : Instr.anonU32.present false = false := by decide

/-! Decoding, from the tables of R101 and R110, bit by bit. -/

theorem test_decode_setup : decode true 0b00000000000000000000011000000001 = .ok (.setup 32 true) := by decide

theorem test_decode_anon : decode true 0b00000000000000000000010011110010 = .ok (.anon 15 .ipv6) := by decide

theorem test_decode_deanon : decode true 0b00000000000000000000011001000011 = .ok (.deanon 4 (.other 3)) := by decide

theorem test_decode_release : decode true 0b00000000000000000000000000000100 = .ok .release := by decide

theorem test_decode_anonU32 : decode true 0b00000000000000000000000000000101 = .ok .anonU32 := by decide

theorem test_decode_rejects :
    decode true 0 = .error .reservedOpcode ∧ decode true 0xF = .error .reservedOpcode ∧
    decode true 0x801 = .error .reservedBits ∧ decode true 0x1002 = .error .reservedBits ∧
    decode true 0x15 = .error .reservedBits ∧ decode false 5 = .error .legacyAbsent := by decide

theorem test_encode_examples :
    encode (.setup 31 false) = 0x1F1 ∧ encode (.anon 4 (.other 5)) = 0xA42 ∧ encode (.deanon 16 .ipv6) = 0x503 ∧
    encode .release = 4 ∧ encode .anonU32 = 5 := by decide

theorem test_decodeTableWord : decodeTableWord 32 0x242 = some (.anon 4 .ipv4) ∧
    decodeTableWord 8 0x104 = some .release ∧ decodeTableWord 64 0x100000004 = none := by decide

/-! AES-128 (§2.1). -/

theorem test_sbox_corners : sbox 0x00 = 0x63 ∧ sbox 0x01 = 0x7c ∧ sbox 0x53 = 0xed ∧ sbox 0xff = 0x16 := by decide

set_option maxRecDepth 20000 in
theorem test_aes_fips_c1 : aes 0x000102030405060708090a0b0c0d0e0f 0x00112233445566778899aabbccddeeff =
    0x69c4e0d86a7b0430d8cdb78070b4c55a := by decide

set_option maxRecDepth 20000 in
theorem test_rk10_of_reference_key : (keyExpansion refK).rk10 = 0x2f36446d55d6123b2dd091ec29478ccd := by decide

/-! The commands (§2.2 to §2.6). -/

set_option maxRecDepth 20000 in
theorem test_setup_reference : ((nextOf (step (placeCommand 0x201 staged))).map fun t =>
    (t.k, t.p, t.keyed, t.stage, statusWord 0 t)) = some (refK, refP, true, 0, 0x00000002) := by decide

theorem test_setup_non_ascii : statusAfter 0x601 { keyed 0 with stage := refSecret } = some 0x00000014 := by decide

theorem test_setup_reserved_bit : statusAfter 0x801 staged = some 0x00000060 := by decide

set_option maxRecDepth 20000 in
theorem test_anon_one_byte : ((nextOf (step (placeCommand 0x012 (keyed (0x80000000000000000000000000000000))))).map fun t =>
    (t.rb, statusWord 0 t)) =
    some (0x87000000000000000000000000000000, 0x00000102) := by decide

theorem test_anon_family_before_length : statusAfter 0xA02 (keyed 0) = some 0x00000032 := by decide

set_option maxRecDepth 20000 in
theorem test_deanon_one_byte : ((nextOf (step (placeCommand 0x013 (keyed (0x87000000000000000000000000000000))))).map fun t =>
    (t.rb, statusWord 0 t)) =
    some (0x80000000000000000000000000000000, 0x00000102) := by decide

theorem test_deanon_disposed : statusAfter 0x043 State.reset = some 0x00000044 := by decide

theorem test_release : ((nextOf (step (placeCommand 0x004 (keyed 7)))).map fun t =>
    (t.k, t.p, t.keyed, t.ab, statusWord 0 t)) = some (0, 0, false, 7, 0x00000004) := by decide

set_option maxRecDepth 20000 in
theorem test_anonU32_row_1 : ((nextOf (step (placeCommand 0x005 (keyed (0x800B4484000000000000000000000000))))).map fun t =>
    (wordOf t.rb 0, statusWord 0 t)) = some (0x87F2B484, 0x00000402) := by decide

theorem test_anonU32_absent : statusAfter 0x005 { keyed 0 with hasU32 := false } = some 0x00000062 := by decide

set_option maxRecDepth 20000 in
/-- §2.3, mask check at pos 8: X[1] is P[1], and Y0 is 0xc7. -/
theorem test_round_8 : buildX (0x800B4484000000000000000000000000) refP 8 = 0x80511496a0446f67a691f2933b1f6735 ∧
    byteOf (aes refK 0x80511496a0446f67a691f2933b1f6735) 0 = 0xc7 := by decide

/-! The window (10_state.md, 20_memory.md). -/

theorem test_cap : (nextOf (step (hostHas [.read 8 4] State.reset))).map (·.seen) = some [0x00201001] := by decide

theorem test_accept : ((nextOf (step (hostHas [.write 0 4 0x242] { State.reset with ovr := true }))).map fun t =>
    (t.busy, t.cur, t.ovr)) = some (true, 0x242, false) := by decide

theorem test_secret_lane : (nextOf (step (hostHas [.write 0x5C 4 0x2A842202] State.reset))).map (·.stage) =
    some 0x2A842202 := by decide

theorem test_write_while_busy : ((nextOf (step (hostHas [.write 0x10 4 5] (inFlight 4 State.reset)))).map fun t =>
    (t.ab, t.ovr)) = some (0, true) := by decide

theorem test_halfword_faults : step (hostHas [.read 4 2] State.reset) = .fault (.busError 4 2) := by rfl

/-! Witnesses: for each obligation with hypotheses, states and operands that meet them together, at boundary values. -/

/-- Another key of the same shape: not the reference key. -/
def otherKeyed : State := { keyed 0 with k := 1, p := 2, ks := keyExpansion 1 }

theorem witness_EncodeThenDecodeReturnsCommand :
    ([.setup 0 false, .setup 63 true, .anon 0 .raw, .anon 31 (.other 7), .deanon 31 (.other 3), .deanon 16 .ipv6,
      .release] : List Instr).all (fun i => i.wf && i.present false) = true ∧
    Instr.anonU32.wf = true ∧ Instr.anonU32.present true = true := by decide

theorem witness_DecodedCommandEncodesToItsWord :
    decode false 0x7F1 = .ok (.setup 63 true) ∧ decode false 0xFF2 = .ok (.anon 31 (.other 7)) ∧
    decode false 0xFF3 = .ok (.deanon 31 (.other 7)) ∧ decode false 4 = .ok .release ∧
    decode true 5 = .ok .anonU32 := by decide

theorem witness_WordSelectsItsOpcodeRow :
    ((0xFFFFFFF0 : Word) &&& 0xF = 0) ∧ 6 ≤ ((0x6 : Word) &&& 0xF).toNat ∧ 6 ≤ ((0xF : Word) &&& 0xF).toNat ∧
    ((0x7F1 : Word) &&& 0xFFFFF80F = 1) ∧ ((0xFF2 : Word) &&& 0xFFFFF00F = 2) ∧
    ((0xFF3 : Word) &&& 0xFFFFF00F = 3) := by decide

theorem witness_DecoderRejectsExactlyIllegalWords :
    IllegalWord true 0x10 ∧ IllegalWord true 0x6 ∧ IllegalWord false 0x5 ∧ IllegalWord true 0x801 ∧
    IllegalWord true 0x1003 ∧ IllegalWord true 0x14 ∧ ¬ IllegalWord true 0x7F1 ∧ ¬ IllegalWord true 0xFF2 ∧
    ¬ IllegalWord true 0x5 := by
  refine ⟨?_, ?_, ?_, ?_, ?_, ?_, ?_, ?_, ?_⟩ <;> decide

theorem witness_StepRunsDecodedCommand : [(0x201, .setup 32 false), (0x002, .anon 0 .raw), (0x043, .deanon 4 .raw),
      (0x004, .release), (0x005, .anonU32)].all (fun ((w, i) : Word × Instr) =>
    engineDue (placeCommand w staged) && decide (decode staged.hasU32 (placeCommand w staged).cur = .ok i)) = true := by
  decide

theorem witness_IllegalCommandOnlyRecordsItsCode : [0x0, 0x6, 0x801, 0x1002, 0x1003, 0x14, 0x15, 0x80000042].all
    (fun (w : Word) => engineDue (placeCommand w staged) &&
      decide (IllegalWord staged.hasU32 (placeCommand w staged).cur)) = true ∧
    IllegalWord { staged with hasU32 := false }.hasU32 0x5 := by decide

theorem witness_EveryCompleteStepEndsItsCommand : engineDue (placeCommand 0 (hostHas [.wait] State.reset)) = true ∧
    engineDue (inFlight 0 State.reset) = true := by decide

theorem witness_FirstErrorInPrecedenceIsRecorded : [0x0, 0x1F1, 0x601, 0x201, 0x004, 0x005, 0xA02, 0x002, 0x232,
      0x4F2, 0x502].all (fun (w : Word) => engineDue (placeCommand w staged)) = true ∧
    stageNotAscii staged.stage = true ∧ stageNotAscii asciiSecret = false := by decide

theorem witness_ErrorCodesOfEachCommand : ∃ t1 t2 t3 t4 t5 t0,
    step (placeCommand 0x1 State.reset) = .next t1 ∧ step (placeCommand 0x2 State.reset) = .next t2 ∧
    step (placeCommand 0x3 State.reset) = .next t3 ∧ step (placeCommand 0x4 State.reset) = .next t4 ∧
    step (placeCommand 0x5 State.reset) = .next t5 ∧ step (placeCommand 0xF State.reset) = .next t0 :=
  ⟨_, _, _, _, _, _, rfl, rfl, rfl, rfl, rfl, rfl⟩

theorem witness_AcceptStepOnlyLatchesTheCommand :
    HostTurn (hostHas [.write 0 4 0x242] staged) (.write 0 4 0x242) [] ∧ staged.busy = false ∧
    HostTurn (hostHas [.write 0 4 0x242] (inFlight 4 staged)) (.write 0 4 0x242) [] ∧
    (inFlight 4 staged).busy = true ∧ HostOp.write 0 4 0x242 ≠ .reset ∧
    ∃ t, step (hostHas [.write 0 4 0x242] (inFlight 4 staged)) = .next t :=
  ⟨⟨rfl, rfl⟩, rfl, ⟨rfl, rfl⟩, rfl, by decide, _, rfl⟩

theorem witness_WritesWhileBusySetOvrAndNothingElse :
    HostTurn (hostHas [.write 0x5C 4 1] (inFlight 4 staged)) (.write 0x5C 4 1) [] ∧
    GuardedOffset 0x000 ∧ GuardedOffset 0x010 ∧ GuardedOffset 0x01C ∧ GuardedOffset 0x040 ∧ GuardedOffset 0x05C ∧
    [0x004, 0x008, 0x00C, 0x020, 0x02C, 0x030, 0x03C, 0x060, 0x0FC].all (fun off =>
      !guarded (regAt off) && off % 4 == 0) = true ∧ ¬ GuardedOffset 0x0FC ∧
    (∃ t, step (hostHas [.write 0x5C 4 1] (inFlight 4 staged)) = .next t ∧ t.ovr = true) ∧
    (∃ t, step (hostHas [.reset] { staged with ovr := true }) = .next t ∧ t.ovr = false) ∧
    (∃ t, step (hostHas [.write 0 4 4] { staged with ovr := true }) = .next t ∧ t.ovr = false) := by
  refine ⟨⟨rfl, rfl⟩, .inl rfl, .inr (.inl ⟨0, by decide, rfl⟩), .inr (.inl ⟨3, by decide, rfl⟩),
    .inr (.inr ⟨0, by decide, rfl⟩), .inr (.inr ⟨7, by decide, rfl⟩), by decide, ?_, ⟨_, rfl, rfl⟩, ⟨_, rfl, rfl⟩,
    ⟨_, rfl, rfl⟩⟩
  rintro (h | ⟨_, _, h⟩ | ⟨_, _, h⟩) <;> omega

theorem witness_AddressWordReadsBackAsLastWritten : ∃ (s : State) (i j : Nat) (v : Word) (rest : List HostOp), i < 4 ∧ j < 4 ∧ i ≠ j ∧ s.busy = false ∧
    s.host = .write (s.base + (0x010 + 4 * i)) 4 v :: .read (s.base + (0x010 + 4 * j)) 4 :: rest :=
  ⟨hostHas [.write 0x1C 4 9, .read 0x10 4] State.reset, 3, 0, 9, [], by decide⟩

theorem witness_BuffersSitInBigEndianLanes : ∃ s1 s2 s3 : State, s1.busy = false ∧ s2.busy = false ∧
    s3.busy = false ∧ s1.host = [.read (s1.base + (0x010 + 4 * 3)) 4] ∧
    s2.host = [.read (s2.base + (0x020 + 4 * 3)) 4] ∧ s3.host = [.write (s3.base + (0x040 + 4 * 7)) 4 5] :=
  ⟨hostHas [.read 0x1C 4] (keyed 7), hostHas [.read 0x2C 4] (keyed 7), hostHas [.write 0x5C 4 5] (keyed 7),
    rfl, rfl, rfl, rfl, rfl, rfl⟩

theorem witness_WriteOnlyRegistersReadZero : HostTurn (hostHas [.read 0 4] (inFlight 4 staged)) (.read 0 4) [] ∧
    HostTurn (hostHas [.read 0x5C 4] staged) (.read 0x5C 4) [] ∧ ∃ j, j < 8 ∧ 0x5C = 0x040 + 4 * j :=
  ⟨⟨rfl, rfl⟩, ⟨rfl, rfl⟩, 7, by decide⟩

theorem witness_ReadsHaveNoSideEffect : HostTurn (hostHas [.read 0xFC 4] staged) (.read (staged.base + 0xFC) 4) [] ∧
    HostTurn (hostHas [.read 0x20 4] (inFlight 4 staged)) (.read (staged.base + 0x20) 4) [] :=
  ⟨⟨rfl, rfl⟩, ⟨rfl, rfl⟩⟩

theorem witness_OnlyAlignedWordsOfTheWindowAreAccepted :
    HostTurn (hostHas [.read 0xFC 4] staged) (.read 0xFC 4) [] ∧ (∃ off, LegalAccess 0 0xFC 4 off) ∧
    HostTurn (hostHas [.write 0x100 4 1] staged) (.write 0x100 4 1) [] ∧ (¬ ∃ off, LegalAccess 0 0x100 4 off) ∧
    (¬ ∃ off, LegalAccess 0 2 4 off) ∧ (¬ ∃ off, LegalAccess 0 0 2 off) := by
  refine ⟨⟨rfl, rfl⟩, ⟨0xFC, rfl, rfl, by decide, rfl⟩, ⟨rfl, rfl⟩, ?_, ?_, ?_⟩ <;> rintro ⟨off, h⟩ <;>
    simp only [LegalAccess] at h <;> omega

theorem witness_ReservedOffsetsReadZeroAndIgnoreWrites :
    [0x00C, 0x030, 0x03C, 0x060, 0x0FC].all (fun off => decide (off = 0x00C ∨ (0x030 ≤ off ∧ off ≤ 0x03C) ∨
      (0x060 ≤ off ∧ off ≤ 0x0FC)) && off % 4 == 0) = true ∧ ReservedOffset 0x3C ∧
    HostTurn (hostHas [.read 0x3C 4] staged) (.read (staged.base + 0x3C) 4) [] ∧
    HostTurn (hostHas [.write 0x3C 4 1] (inFlight 4 staged)) (.write (staged.base + 0x3C) 4 1) [] :=
  ⟨by decide, .inr (.inl (by decide)), ⟨rfl, rfl⟩, ⟨rfl, rfl⟩⟩

theorem witness_IdleStatusShowsItsFields :
    HostTurn (hostHas [.read 4 4] staged) (.read (staged.base + 0x004) 4) [] ∧ staged.busy = false ∧
    HostTurn (hostHas [.write 4 4 1] staged) (.write (staged.base + 0x004) 4 1) [] :=
  ⟨⟨rfl, rfl⟩, rfl, ⟨rfl, rfl⟩⟩

theorem witness_ReadsWhileBusyFixTheseFields : (inFlight 4 staged).busy = true ∧
    [0x000, 0x004, 0x008, 0x00C, 0x01C, 0x05C, 0x0FC].all (fun off =>
      decide (engineDue (hostHas [.read off 4] (inFlight 4 staged)) = false)) = true := by decide

theorem witness_CapReadsItsConstant :
    HostTurn (hostHas [.read 8 4] staged) (.read (staged.base + 0x008) 4) [] ∧
    HostTurn (hostHas [.write 8 4 1] staged) (.write (staged.base + 0x008) 4 1) [] := ⟨⟨rfl, rfl⟩, ⟨rfl, rfl⟩⟩

theorem witness_WritesToReadOnlyRegistersAreIgnored :
    HostTurn (hostHas [.write 0x20 4 1] staged) (.write (staged.base + (0x020 + 4 * 0)) 4 1) [] ∧
    HostTurn (hostHas [.write 0x2C 4 1] (inFlight 4 staged)) (.write (staged.base + (0x020 + 4 * 3)) 4 1) [] ∧
    HostTurn (hostHas [.write 4 4 1] staged) (.write (staged.base + 0x004) 4 1) [] ∧
    HostTurn (hostHas [.write 8 4 1] staged) (.write (staged.base + 0x008) 4 1) [] ∧ staged.busy = false ∧
    (inFlight 4 staged).busy = true := ⟨⟨rfl, rfl⟩, ⟨rfl, rfl⟩, ⟨rfl, rfl⟩, ⟨rfl, rfl⟩, rfl, rfl⟩

theorem witness_ResetGivesEveryRegisterItsResetValue : HostTurn (hostHas [.reset] (keyed 7)) .reset [] ∧
    HostTurn (hostHas [.reset] (inFlight 0x242 (keyed 7))) .reset [] := ⟨⟨rfl, rfl⟩, ⟨rfl, rfl⟩⟩

theorem witness_SetupLoadsKeyScheduleAndPad : 32 ≤ 32 ∧ 32 ≤ 63 ∧
    ((List.range 32).all fun i => decide ((stageByte asciiSecret i).toNat < 0x80)) = true := by decide

theorem witness_FailedSetupUnkeysAndZeroises : 31 < 32 ∧ 0x80 ≤ (stageByte refSecret 3).toNat ∧
    State.reset.err ≠ 1 ∧ (∃ t, exec (.setup 31 false) State.reset = .next t ∧ t.err = 1) ∧
    ∃ t, exec (.setup 32 true) staged = .next t ∧ t.err = 1 :=
  ⟨by decide, by decide, by decide, ⟨_, rfl, rfl⟩, ⟨_, rfl, by decide⟩⟩

theorem witness_SecondReleaseChangesNothing : ∃ t, exec .release (keyed 7) = .next t := ⟨_, rfl⟩

theorem witness_ZeroedReportsZeroStateAfterRelease :
    engineDue (placeCommand 4 (keyed 7)) = true ∧ decode true (placeCommand 4 (keyed 7)).cur = .ok .release ∧
    ({ State.reset with k := 1 } : State).k ≠ 0 ∧ ({ State.reset with p := 1 } : State).p ≠ 0 ∧
    staged.busy = false ∧ staged.stage ≠ 0 ∧
    ({ State.reset with ks := ⟨0, 0, 0, 0, 0, 0, 0, 0, 0, 0, 1⟩ } : State).ks ≠ KeySchedule.zero := by decide

/-- Every transform statement's hypotheses, at the edges of each family's lengths. -/
theorem witness_AnonXorsTheRoundBits : (keyed 7).keyed = true ∧ resolve 1 .raw = .ok 1 ∧ resolve 16 .raw = .ok 16 ∧
    resolve 31 .raw = .ok 16 ∧ resolve 4 .ipv4 = .ok 4 ∧ resolve 31 .ipv4 = .ok 4 ∧ resolve 16 .ipv6 = .ok 16 :=
  ⟨rfl, rfl, rfl, rfl, rfl, rfl, rfl⟩

theorem witness_DeanonSolvesForTheAddress : (keyed 7).keyed = true ∧ resolve 31 .ipv6 = .ok 16 := ⟨rfl, rfl⟩

theorem witness_AnonU32EqualsFourByteAnon : (keyed 7).keyed = true := rfl

theorem witness_TransformsAreDisposedWhenUnkeyed : staged.keyed = false ∧ staged.err ≠ 4 ∧
    (∃ t, exec (.anon 0 (.other 5)) staged = .next t ∧ t.err = 4) ∧
    (∃ t, exec (.deanon 4 .raw) staged = .next t ∧ t.err = 4) ∧
    ∃ t, exec .anonU32 staged = .next t ∧ t.err = 4 :=
  ⟨rfl, by decide, ⟨_, rfl, rfl⟩, ⟨_, rfl, rfl⟩, ⟨_, rfl, rfl⟩⟩

theorem witness_OtherFamiliesAreInvalid : (keyed 7).keyed = true ∧ (keyed 7).err ≠ 3 ∧ famOf 0x602 = .other 3 ∧
    famOf 0xE02 = .other 7 ∧ (Instr.anon 0 (.other 3)).wf = true ∧ (Instr.deanon 31 (.other 7)).wf = true ∧
    (∃ t, exec (.anon 0 (.other 3)) (keyed 7) = .next t ∧ t.err = 3) ∧
    ∃ t, exec (.deanon 31 (.other 7)) (keyed 7) = .next t ∧ t.err = 3 :=
  ⟨rfl, by decide, by decide, by decide, by decide, by decide, ⟨_, rfl, rfl⟩, ⟨_, rfl, rfl⟩⟩

theorem witness_TooShortAddressesAreInvalidInput : (keyed 7).keyed = true ∧ (keyed 7).err ≠ 2 ∧
    (∃ t, exec (.anon 0 .raw) (keyed 7) = .next t ∧ t.err = 2) ∧
    (∃ t, exec (.anon 3 .ipv4) (keyed 7) = .next t ∧ t.err = 2) ∧
    ∃ t, exec (.deanon 15 .ipv6) (keyed 7) = .next t ∧ t.err = 2 :=
  ⟨rfl, by decide, ⟨_, rfl, rfl⟩, ⟨_, rfl, rfl⟩, ⟨_, rfl, rfl⟩⟩

theorem witness_TaggedAndOverlongFormsEqualRawForms : 4 ≤ 5 ∧ 16 ≤ 17 ∧ 16 ≤ 31 := by decide

theorem witness_BytesBeyondTheLengthHaveNoEffect : (keyed 7).keyed = true ∧ resolve 15 .raw = .ok 15 ∧
    ShareBits (8 * 15) (keyed 7).ab 9 ∧ (keyed 7).ab ≠ 9 := by
  refine ⟨rfl, rfl, ?_, by decide⟩
  unfold ShareBits
  decide

theorem witness_DeanonAndAnonUndoEachOther : (keyed 7).keyed = true ∧ resolve 6 .raw = .ok 6 := ⟨rfl, rfl⟩

theorem witness_RoundInputsAtTheEdges : 120 < 128 ∧ 120 % 8 = 0 ∧ 15 < 16 ∧ 119 < 8 * 15 ∧ 15 ≤ 15 := by decide

theorem witness_RoundInputIsPrefixThenPad : 0 < 128 ∧ 13 < 128 ∧ 127 < 128 := by decide

theorem witness_ForwardAndInverseUndoEachOther : 1 ≤ 1 ∧ 1 ≤ 16 ∧ 16 ≤ 16 := by decide

theorem witness_PrefixesArePreservedBothWays : 1 ≤ 16 ∧ 127 ≤ 8 * 16 ∧ ShareBits 127 2 3 := by
  unfold ShareBits
  decide

theorem witness_ForwardIsABijectionOnEachLength : 1 ≤ 1 ∧ 1 ≤ 16 ∧
    IsBytes 1 0x80000000000000000000000000000000 ∧ IsBytes 16 refK := by
  refine ⟨by decide, by decide, ?_, fun i h h' => absurd h (by omega)⟩
  unfold IsBytes
  intro i h h'
  interval_cases i <;> decide

theorem witness_LeadingBytesDoNotDependOnLength : 1 ≤ 15 ∧ 15 ≤ 16 ∧ 16 ≤ 16 := by decide

theorem witness_InversePreservesPrefixes : 1 ≤ 16 ∧ 127 ≤ 8 * 16 ∧ ShareBits 127 2 3 :=
  witness_PrefixesArePreservedBothWays

theorem witness_KeyScheduleFollowsItsRecurrence : 3 < 4 ∧ 4 ≤ 4 ∧ 43 < 44 ∧ 4 % 4 = 0 ∧ ¬ 43 % 4 = 0 := by decide

theorem witness_AesStepsActCellByCell : 3 < 4 ∧ 0 < 4 := by decide

/-- A keyed idle block meets the invariant, and so does it with a command in flight. -/
theorem keyed_inv (ab : Block) : StateInv (keyed ab) where
  unkeyed h := by cases h
  schedule _ := rfl
  idleCur _ := rfl
  idleScratch _ := rfl
  errCodes := .inl rfl
  rlenLe := Nat.zero_le 16
  tailZero := by
    intro i _ h'
    show byteOf 0 i = 0
    interval_cases i <;> decide
  errNoResult h := absurd rfl h
  baseAligned := rfl

theorem witness_EveryStepKeepsInvariant :
    (StateInv (hostHas [.write 0 4 0x201] (keyed 7)) ∧
      ∃ t, step (hostHas [.write 0 4 0x201] (keyed 7)) = .next t) ∧
    (StateInv (placeCommand 0x242 (keyed 7)) ∧ ∃ t, step (placeCommand 0x242 (keyed 7)) = .next t) := by
  have h := keyed_inv 7
  exact ⟨⟨⟨h.1, h.2, h.3, h.4, h.5, h.6, h.7, h.8, h.9⟩, _, rfl⟩,
    ⟨h.1, h.2, fun e => (by cases e), fun e => (by cases e), h.5, h.6, h.7, h.8, h.9⟩,
    (Laws.step_due_cases (s := placeCommand 0x242 (keyed 7)) rfl).elim
      (fun ⟨_, _, e⟩ => ⟨_, e⟩) (fun ⟨_, _, _, _, e⟩ => ⟨_, e⟩)⟩

theorem witness_KeyedBlockReadsNotZeroed : StateInv (keyed 7) ∧ (keyed 7).keyed = true := ⟨keyed_inv 7, rfl⟩

theorem witness_SecretsNeverReachTheHost : engineDue (hostHas [.read 4 4] (keyed 0)) = false ∧
    publicView (hostHas [.read 4 4] (keyed 0)) = publicView (hostHas [.read 4 4] otherKeyed) ∧
    zeroed (hostHas [.read 4 4] (keyed 0)) = zeroed (hostHas [.read 4 4] otherKeyed) ∧
    (keyed 0).k ≠ otherKeyed.k := by decide

theorem witness_OnlySetupLoadsAKey : ∃ t, step (placeCommand 0x201 staged) = .next t ∧ t.k ≠ staged.k ∧ t.k ≠ 0 ∧
    staged.keyed = false ∧ t.keyed = true := ⟨_, rfl, by decide, by decide, rfl, rfl⟩

theorem witness_OnlyTheHostChangesTheAddressBuffer :
    (∃ t, step (hostHas [.write 0x1C 4 9] (keyed 7)) = .next t ∧ t.ab ≠ 7) ∧
    ∃ t, step (hostHas [.reset] (keyed 7)) = .next t ∧ t.ab ≠ 7 := ⟨⟨_, rfl, by decide⟩, ⟨_, rfl, by decide⟩⟩

theorem witness_WaitEndsWithTheFinishedStatus : (hostHas [.wait] (inFlight 4 staged)).host = [.wait] ∧
    (hostHas [.wait] staged).host = [.wait] := ⟨rfl, rfl⟩

theorem witness_HostOperationsAreTakenInOrder :
    (HostTurn (hostHas [.read 8 4] staged) (.read 8 4) [] ∧ ∃ t, step (hostHas [.read 8 4] staged) = .next t) ∧
    (HostTurn (hostHas [.wait] (inFlight 4 staged)) .wait [] ∧
      ∃ t, step (hostHas [.wait] (inFlight 4 staged)) = .next t ∧ t.host = [.wait]) := by
  refine ⟨⟨⟨rfl, rfl⟩, _, rfl⟩, ⟨rfl, rfl⟩, ?_⟩
  rcases Laws.hostPoll_cases (takeOp [] (hostHas [.wait] (inFlight 4 staged))) with ⟨_, e⟩ | ⟨h, _⟩
  · exact ⟨_, congrArg Host.Outcome.next e, rfl⟩
  · cases h

end Sys2Proof.Tests
end

/-! PROOFS. Rules of the model's operations and steps that the statements about the state share: what each kind of step
can change, and what no step changes. -/

namespace Sys2Proof.Proofs

open Sys2Proof.Machine Sys2Proof.Safety Sys2Proof.Laws

/-! The block without the model's own fields. -/

@[simp] theorem blockPart_takeOp (rest : List HostOp) (s : State) : blockPart (takeOp rest s) = blockPart s := rfl

@[simp] theorem blockPart_recordRead (r : Reg) (s : State) : blockPart (recordRead r s) = blockPart s := rfl

@[simp] theorem blockPart_hostPoll (s : State) : blockPart (hostPoll s) = blockPart s := by
  rcases hostPoll_cases s with ⟨_, e⟩ | ⟨_, e⟩ <;> rw [e] <;> rfl

/-- Two states with the same block part agree on every register and strap of the block. -/
theorem eq_of_blockPart {s t : State} (h : blockPart t = blockPart s) :
    t = { s with host := t.host, seen := t.seen, left := t.left, draws := t.draws } := by
  obtain ⟨⟩ := s
  obtain ⟨⟩ := t
  simpa [blockPart] using h

/-! The host's steps. -/

/-- While BUSY = 1 a host write is ignored, with or without OVR (R45). -/
theorem writeReg_of_busy {s : State} (hb : s.busy = true) (r : Reg) (v : Word) :
    writeReg r v s = s ∨ writeReg r v s = ignoreWrite s := by
  cases hg : guarded r with
  | false => exact .inl (writeReg_unguarded hg v s)
  | true => exact .inr (writeReg_busy hb hg v)

/-- R31: the only offset of CMD. -/
theorem regAt_eq_cmd {off : Nat} (ho : off < 0x100) (hm : off % 4 = 0) (h : regAt off = .cmd) : off = 0x000 := by
  rcases regAt_cases ho hm with ⟨e, _⟩ | ⟨_, r⟩ | ⟨_, r⟩ | ⟨_, _, _, r⟩ | ⟨_, _, _, r⟩ | ⟨_, _, _, r⟩ | ⟨_, r⟩
  · exact e
  all_goals rw [h] at r; cases r

/-- R31: the only offset of ADDRj. -/
theorem regAt_eq_addr {off j : Nat} (ho : off < 0x100) (hm : off % 4 = 0) (h : regAt off = .addr j) :
    j < 4 ∧ off = 0x010 + 4 * j := by
  rcases regAt_cases ho hm with ⟨_, r⟩ | ⟨_, r⟩ | ⟨_, r⟩ | ⟨i, hi, e, r⟩ | ⟨_, _, _, r⟩ | ⟨_, _, _, r⟩ | ⟨_, r⟩
  case inr.inr.inr.inl => rw [h] at r; cases r; exact ⟨hi, e⟩
  all_goals rw [h] at r; cases r

/-- A host operation that ends in a next state leaves the block as it is, writes a register, or resets. -/
theorem hostOp_next_cases {op : HostOp} {s t : State} (h : hostOp op s = .next t) :
    blockPart t = blockPart s ∨
    (∃ off v, op = .write (s.base + off) 4 v ∧ off < 0x100 ∧ off % 4 = 0 ∧ t = writeReg (regAt off) v s) ∨
    (op = .reset ∧ t = resetBlock s) := by
  rcases hostOp_cases op s with ⟨_, _, _, _, _, e⟩ | ⟨_, _, v, off, rfl, ⟨rfl, rfl, ho, hm⟩, e⟩ | ⟨_, _, _, _, e⟩ |
    ⟨_, e⟩ | ⟨hop, e⟩ <;> rw [e] at h <;> cases h
  · exact .inl rfl
  · exact .inr (.inl ⟨off, v, rfl, ho, hm, rfl⟩)
  · exact .inl (blockPart_hostPoll s)
  · exact .inr (.inr ⟨hop, rfl⟩)

/-- What any step that ends in a next state did: the engine completed a command, or nothing of the block changed, or
the host wrote a register, or the host reset the block. -/
theorem step_next_cases {s t : State} (h : step s = .next t) :
    engineDue s = true ∨
    blockPart t = blockPart s ∨
    (∃ off v rest, HostTurn s (.write (s.base + off) 4 v) rest ∧ off < 0x100 ∧ off % 4 = 0 ∧
      t = writeReg (regAt off) v (takeOp rest s)) ∨
    (∃ rest, HostTurn s .reset rest ∧ t = resetBlock (takeOp rest s)) := by
  rcases step_cases h with hd | ⟨_, rfl⟩ | ⟨op, rest, hturn, hop⟩
  · exact .inl hd
  · exact .inr (.inl rfl)
  · rcases hostOp_next_cases hop with hblock | ⟨off, v, rfl, ho, hm, ht⟩ | ⟨rfl, ht⟩
    · exact .inr (.inl hblock)
    · exact .inr (.inr (.inl ⟨off, v, rest, hturn, ho, hm, ht⟩))
    · exact .inr (.inr (.inr ⟨rest, hturn, ht⟩))

/-- R45: a write to a guarded offset while BUSY = 1 only sets OVR. -/
theorem step_write_guarded_busy {s : State} {off : Nat} {v : Word} {rest : List HostOp}
    (h : HostTurn s (.write (s.base + off) 4 v) rest) (hb : s.busy = true) (hg : GuardedOffset off) :
    step s = .next (ignoreWrite (takeOp rest s)) := by
  obtain ⟨ho, hm⟩ := guardedOffset_range hg
  rw [step_write h ho hm, writeReg_busy (s := takeOp rest s) hb ((guarded_regAt ho hm).mpr hg)]

/-- R31, R74: a write to a read-only or reserved offset does nothing. -/
theorem step_write_unguarded {s : State} {off : Nat} {v : Word} {rest : List HostOp}
    (h : HostTurn s (.write (s.base + off) 4 v) rest) (ho : off < 0x100) (hm : off % 4 = 0)
    (hg : ¬ GuardedOffset off) : step s = .next (takeOp rest s) := by
  rw [step_write h ho hm, writeReg_unguarded]
  rwa [← guarded_regAt ho hm, Bool.not_eq_true] at hg

/-- R33, R36, R38: STATUS, CAP and RESj are not guarded. -/
theorem not_guardedOffset_readOnly {off : Nat} (h : off = 0x004 ∨ off = 0x008 ∨ ∃ j, j < 4 ∧ off = 0x020 + 4 * j) :
    ¬ GuardedOffset off := by
  rintro (hg | ⟨_, _, hg⟩ | ⟨_, _, hg⟩) <;> rcases h with h | h | ⟨_, _, h⟩ <;> omega

/-- A write to STATUS, CAP or a RESj does nothing (R33, R36, R38). -/
theorem step_write_readOnly {s : State} {off : Nat} {v : Word} {rest : List HostOp}
    (hoff : off = 0x004 ∨ off = 0x008 ∨ ∃ j, j < 4 ∧ off = 0x020 + 4 * j)
    (h : HostTurn s (.write (s.base + off) 4 v) rest) : step s = .next (takeOp rest s) :=
  step_write_unguarded h (by rcases hoff with e | e | ⟨_, _, e⟩ <;> omega)
    (by rcases hoff with e | e | ⟨_, _, e⟩ <;> omega) (not_guardedOffset_readOnly hoff)

/-- R32, R39, R74: CMD, SECRETn and reserved offsets read 0, whatever BUSY is. -/
theorem step_read_zero {s : State} {off : Nat} {rest : List HostOp}
    (hoff : off = 0x000 ∨ (∃ j, j < 8 ∧ off = 0x040 + 4 * j) ∨ (ReservedOffset off ∧ off % 4 = 0))
    (h : HostTurn s (.read (s.base + off) 4) rest) :
    ∃ t, step s = .next t ∧ blockPart t = blockPart s ∧ t.seen = 0 :: s.seen := by
  rcases hoff with rfl | ⟨j, hj, rfl⟩ | ⟨hr, hm⟩
  · exact ⟨_, step_read h (by omega) (by omega), rfl, rfl⟩
  · refine ⟨_, step_read h (by omega) (by omega), rfl, ?_⟩
    rw [regAt_secret hj]
    rfl
  · have hr' : off = 0x00C ∨ (0x030 ≤ off ∧ off ≤ 0x03C) ∨ (0x060 ≤ off ∧ off ≤ 0x0FC) := hr
    refine ⟨_, step_read h (by omega) hm, rfl, ?_⟩
    rw [regAt_reserved (by omega) hm (by omega)]
    rfl

/-- R37: a read of ADDRj gives its word, whatever BUSY is. -/
theorem step_read_addr {s : State} {j : Nat} {rest : List HostOp} (hj : j < 4)
    (h : HostTurn s (.read (s.base + (0x010 + 4 * j)) 4) rest) :
    step s = .next (recordRead (.addr j) (takeOp rest s)) := by
  rw [step_read h (by omega) (by omega), regAt_addr hj]

/-- R37: a write to ADDRj of an idle block stores its word in AB. -/
theorem step_write_addr {s : State} {j : Nat} {v : Word} {rest : List HostOp} (hj : j < 4) (hb : s.busy = false)
    (h : HostTurn s (.write (s.base + (0x010 + 4 * j)) 4 v) rest) :
    step s = .next { takeOp rest s with ab := setWord s.ab j v } := by
  rw [step_write h (by omega) (by omega), regAt_addr hj]
  simp [writeReg, hb]

/-- R50: a write to CMD of an idle block is the accept step. -/
theorem step_write_cmd {s : State} {v : Word} {rest : List HostOp} (hb : s.busy = false)
    (h : HostTurn s (.write (s.base + 0x000) 4 v) rest) : step s = .next (acceptCommand v (takeOp rest s)) := by
  rw [step_write h (by omega) (by omega), regAt_cmd]
  simp [writeReg, hb]

/-- R36: CAP's two constants. -/
theorem capWord_eq (hasU32 : Bool) : capWord hasU32 = if hasU32 then 0x00201001 else 0x00201000 := by
  cases hasU32 <;> decide

/-- R36: CAP reads its constant, whatever BUSY is. -/
theorem step_read_cap {s : State} {rest : List HostOp} (h : HostTurn s (.read (s.base + 0x008) 4) rest) :
    ∃ t, step s = .next t ∧ t.seen = (if s.hasU32 then 0x00201001 else 0x00201000) :: s.seen :=
  ⟨_, step_read h (by omega) (by omega), congrArg (· :: s.seen) (capWord_eq s.hasU32)⟩

/-! The bodies of the commands. -/

/-- R150: the operand of ANON_U32 is the first four bytes of AB. -/
theorem u32Operand_wordOf (b : Block) : u32Operand (wordOf b 0) = keepBytes 4 b := by
  refine block_ext fun i hi => ?_
  rw [u32Operand, byteOf_blockOf _ _ hi, byteOf_keepBytes _ _ _ hi]
  split
  · rw [bytesBe_wordOf _ _ _ ‹_›, Nat.mul_zero, Nat.zero_add]
  · rfl

/-- R71: storing register 0 of a buffer stores its first four bytes. -/
theorem setWord_zero_wordOf (d v : Block) : setWord d 0 (wordOf v 0) = storeBytes d 4 v := by
  refine block_ext fun i hi => ?_
  rw [byteOf_setWord _ _ _ _ hi, byteOf_storeBytes _ _ _ _ hi]
  by_cases h : i < 4
  · rw [if_pos (by omega), if_pos h, bytesBe_wordOf _ _ _ (by omega), Nat.mul_zero, Nat.zero_add,
      Nat.mod_eq_of_lt h]
  · rw [if_neg (by omega), if_neg h]

/-- R150: ANON_U32 is the transform of ANON on four bytes. -/
theorem anonymiseU32_eq (s : State) : anonymiseU32 s = anonymise 4 s := by
  have hrb := setWord_zero_wordOf s.rb (fwd s.k s.p (keepBytes 4 s.ab) 4)
  rw [wordOf] at hrb
  simp only [anonymiseU32, anonymise, u32Operand_wordOf, Config.ipv4L, ← hrb]
  rfl

/-- A keyed ANON whose operands resolve (R146). -/
theorem exec_anon_ok {s : State} {len l : Nat} {fam : Family} (hk : s.keyed = true) (hr : resolve len fam = .ok l) :
    exec (.anon len fam) s = .next (anonymise l s) := by
  simp [exec, execAnon, hk, hr]

/-- A keyed DEANON whose operands resolve (R170). -/
theorem exec_deanon_ok {s : State} {len l : Nat} {fam : Family} (hk : s.keyed = true) (hr : resolve len fam = .ok l) :
    exec (.deanon len fam) s = .next (deanonymise l s) := by
  simp [exec, execDeanon, hk, hr]

/-- R142: the two errors of `Resolve`. -/
theorem resolve_error_kind {len : Nat} {fam : Family} {e : ErrorKind} (h : resolve len fam = .error e) :
    e = .invalidFamily ∨ e = .invalidInput :=
  (resolve_error_cases h).imp And.left And.left

/-- Everything a command's body can do, whatever the command: record an error, fail or load a SETUP, release, or
transform an address of 1 … 16 bytes. -/
theorem exec_cases {i : Instr} {s t : State} (h : exec i s = .next t) :
    (∃ e, (e = .disposed ∨ e = .invalidFamily ∨ e = .invalidInput) ∧ t = fail e s) ∨
    t = zeroiseStage (fail .invalidKey (zeroiseKey s)) ∨
    (∃ slen asc, i = .setup slen asc ∧ 32 ≤ slen ∧ ¬ (asc = true ∧ stageNotAscii s.stage = true) ∧
      t = zeroiseStage (loadKey (zeroiseKey s))) ∨
    t = zeroiseStage (zeroiseKey s) ∨
    (∃ l, l ≤ 16 ∧ t = anonymise l s) ∨ (∃ l, l ≤ 16 ∧ t = deanonymise l s) := by
  cases i with
  | setup slen asc =>
    rw [exec, execSetup] at h
    rcases setupBody_cases slen asc (zeroiseKey s) with ⟨_, e⟩ | ⟨⟨hlen, hasc⟩, e⟩ <;> rw [e] at h <;> cases h
    · exact .inr (.inl rfl)
    · exact .inr (.inr (.inl ⟨slen, asc, rfl, hlen, hasc, rfl⟩))
  | anon len fam =>
    rw [exec] at h
    rcases execAnon_cases len fam s with ⟨_, e⟩ | ⟨_, x, hx, e⟩ | ⟨_, l, hl, e⟩ <;> rw [e] at h <;> cases h
    · exact .inl ⟨_, .inl rfl, rfl⟩
    · exact .inl ⟨x, .inr (resolve_error_kind hx), rfl⟩
    · exact .inr (.inr (.inr (.inr (.inl ⟨l, (resolve_ok_range hl).2, rfl⟩))))
  | deanon len fam =>
    rw [exec] at h
    rcases execDeanon_cases len fam s with ⟨_, e⟩ | ⟨_, x, hx, e⟩ | ⟨_, l, hl, e⟩ <;> rw [e] at h <;> cases h
    · exact .inl ⟨_, .inl rfl, rfl⟩
    · exact .inl ⟨x, .inr (resolve_error_kind hx), rfl⟩
    · exact .inr (.inr (.inr (.inr (.inr ⟨l, (resolve_ok_range hl).2, rfl⟩))))
  | release => cases h; exact .inr (.inr (.inr (.inl rfl)))
  | anonU32 =>
    rw [exec] at h
    rcases execAnonU32_cases s with ⟨_, e⟩ | ⟨_, e⟩ <;> rw [e] at h <;> cases h
    · exact .inl ⟨_, .inl rfl, rfl⟩
    · exact .inr (.inr (.inr (.inr (.inl ⟨4, by omega, anonymiseU32_eq s⟩))))

/-- The engine's step ends in `finishCommand` of what an illegal word or a decoded body leaves (R52). -/
theorem step_due_next {s t : State} (hd : engineDue s = true) (h : step s = .next t) :
    ∃ u, t = finishCommand u ∧
      (u = fail .illegalCommand (startCommand s) ∨
        ∃ i, decode s.hasU32 s.cur = .ok i ∧ exec i (startCommand s) = .next u) := by
  rcases step_due_cases hd with ⟨_, _, e⟩ | ⟨i, u, hdec, hexec, e⟩ <;> rw [h] at e <;> cases e
  · exact ⟨_, rfl, .inl rfl⟩
  · exact ⟨u, rfl, .inr ⟨i, hdec, hexec⟩⟩

end Sys2Proof.Proofs

/-! PROOFS. The invariant: every step keeps it, reset meets it, and it makes a keyed block read as not zeroed. -/

namespace Sys2Proof.Proofs

open Sys2Proof.Machine Sys2Proof.Safety Sys2Proof.Laws

/-- The part of `StateInv` about the key, which the epilogue of the complete step does not touch (R42, R43). -/
structure KeyInv (s : State) : Prop where
  unkeyed : s.keyed = false → s.k = 0 ∧ s.p = 0 ∧ s.ks = KeySchedule.zero
  schedule : s.keyed = true → s.ks = keyExpansion s.k

/-- The part of `StateInv` about ERR, RLEN and RB, which the start of the complete step establishes (R35, R38, R240). -/
structure ResultInv (s : State) : Prop where
  errCodes : s.err = 0 ∨ s.err = 1 ∨ s.err = 2 ∨ s.err = 3 ∨ s.err = 4 ∨ s.err = 6
  rlenLe : s.rlen.toNat ≤ 16
  tailZero : IsBytes s.rlen.toNat s.rb
  errNoResult : s.err ≠ 0 → s.rlen = 0

/-- The epilogue makes the block idle, so after it the invariant is what it says about key, results and BASE. -/
theorem stateInv_finishCommand {u : State} (hkey : KeyInv u) (hres : ResultInv u) (hbase : u.base % 0x100 = 0) :
    StateInv (finishCommand u) where
  unkeyed := hkey.unkeyed
  schedule := hkey.schedule
  idleCur _ := rfl
  idleScratch _ := rfl
  errCodes := hres.errCodes
  rlenLe := hres.rlenLe
  tailZero := hres.tailZero
  errNoResult := hres.errNoResult
  baseAligned := hbase

/-- The invariant speaks of the block alone. -/
theorem stateInv_blockPart {s : State} : StateInv (blockPart s) ↔ StateInv s :=
  ⟨fun h => { h with }, fun h => { h with }⟩

/-! The engine. -/

/-- With no key in the block, the key clauses hold. -/
theorem keyInv_of_zeroised {s : State} (hkeyed : s.keyed = false) (hk : s.k = 0) (hp : s.p = 0)
    (hks : s.ks = KeySchedule.zero) : KeyInv s :=
  ⟨fun _ => ⟨hk, hp, hks⟩, fun h => absurd (hkeyed.symm.trans h) Bool.false_ne_true⟩

/-- R42, R43: every body keeps the key clauses. -/
theorem exec_keeps_keyInv {i : Instr} {s t : State} (h : KeyInv s) (he : exec i s = .next t) : KeyInv t := by
  rcases exec_cases he with ⟨e, _, rfl⟩ | rfl | ⟨_, _, _, _, _, rfl⟩ | rfl | ⟨l, _, rfl⟩ | ⟨l, _, rfl⟩
  case inr.inr.inl => exact ⟨fun hkeyed => absurd hkeyed (by simp), fun _ => rfl⟩
  case inr.inl | inr.inr.inr.inl => exact keyInv_of_zeroised rfl rfl rfl rfl
  all_goals exact ⟨h.unkeyed, h.schedule⟩

theorem isBytes_zero (l : Nat) : IsBytes l 0 := by
  intro i _ _
  simp [byteOf]

/-- A block that holds no result meets the result clauses, whatever code a command records. -/
theorem resultInv_of_noResult {s : State} (herr : ∃ e, e ≠ .internal ∧ s.err = errCode e) (hrlen : s.rlen = 0)
    (hrb : s.rb = 0) : ResultInv s where
  errCodes := by
    obtain ⟨e, he, hs⟩ := herr
    rw [hs]
    cases e <;> simp_all [errCode]
  rlenLe := by rw [hrlen]; exact Nat.zero_le 16
  tailZero := by rw [hrb]; exact isBytes_zero _
  errNoResult _ := hrlen

/-- R35, R38: a transform of l bytes leaves RLEN = l and nothing in RB after them. -/
theorem resultInv_of_transform {s : State} {l : Nat} {v : Block} (hl : l ≤ 16) (herr : s.err = 0)
    (hrlen : s.rlen = BitVec.ofNat 5 l) (hrb : s.rb = storeBytes 0 l v) : ResultInv s := by
  have hnat : s.rlen.toNat = l := by rw [hrlen, BitVec.toNat_ofNat, Nat.mod_eq_of_lt (by omega)]
  refine ⟨.inl herr, hnat.trans_le hl, fun i hli hi => ?_, fun h => absurd herr h⟩
  rw [hrb, byteOf_storeBytes _ _ _ _ hi, if_neg (by omega)]
  exact isBytes_zero l i (by omega) hi

/-- R35, R38, R240: what any body leaves of ERR, RLEN and RB when it starts from all three cleared. -/
theorem exec_resultInv {i : Instr} {s t : State} (he : exec i (startCommand s) = .next t) : ResultInv t := by
  rcases exec_cases he with ⟨e, hcode, rfl⟩ | rfl | ⟨_, _, _, _, _, rfl⟩ | rfl | ⟨l, hl, rfl⟩ | ⟨l, hl, rfl⟩
  · exact resultInv_of_noResult ⟨e, by rcases hcode with rfl | rfl | rfl <;> decide, rfl⟩ rfl rfl
  · exact resultInv_of_noResult ⟨.invalidKey, by decide, rfl⟩ rfl rfl
  · exact resultInv_of_noResult ⟨.none, by decide, rfl⟩ rfl rfl
  · exact resultInv_of_noResult ⟨.none, by decide, rfl⟩ rfl rfl
  · exact resultInv_of_transform hl rfl rfl rfl
  · exact resultInv_of_transform hl rfl rfl rfl

/-- The complete step keeps the invariant. -/
theorem step_due_keeps_stateInv {s t : State} (h : StateInv s) (hd : engineDue s = true) (hst : step s = .next t) :
    StateInv t := by
  have hkey : KeyInv (startCommand s) := ⟨h.unkeyed, h.schedule⟩
  obtain ⟨u, rfl, rfl | ⟨i, _, hexec⟩⟩ := step_due_next hd hst
  · exact stateInv_finishCommand ⟨hkey.unkeyed, hkey.schedule⟩
      (resultInv_of_noResult ⟨.illegalCommand, by decide, rfl⟩ rfl rfl) h.baseAligned
  · obtain ⟨u', hu', _, _, hbase, _⟩ := exec_next i (startCommand s)
    obtain rfl : u' = u := Host.Outcome.next.inj (hu'.symm.trans hexec)
    exact stateInv_finishCommand (exec_keeps_keyInv hkey hexec) (exec_resultInv hexec) (hbase ▸ h.baseAligned)

/-! The host. -/

/-- Every register write keeps the invariant: only CMD makes the block busy, and only with a word in CUR. -/
theorem writeReg_keeps_stateInv {s : State} (h : StateInv s) (r : Reg) (v : Word) : StateInv (writeReg r v s) := by
  rcases writeReg_cases r v s with ⟨_, _, e⟩ | ⟨_, _, e⟩ | ⟨_, j, _, e⟩ | ⟨_, j, _, e⟩ | ⟨_, e⟩ <;> rw [e]
  case inr.inl =>
    exact { h with idleCur := fun hb => absurd hb (by simp), idleScratch := fun hb => absurd hb (by simp) }
  all_goals exact { h with }

/-- R54, R280: reset establishes the invariant wherever BASE is aligned. -/
theorem stateInv_resetBlock {s : State} (hbase : s.base % 0x100 = 0) : StateInv (resetBlock s) where
  unkeyed _ := ⟨rfl, rfl, rfl⟩
  schedule h := absurd h (by simp)
  idleCur _ := rfl
  idleScratch _ := rfl
  errCodes := .inl rfl
  rlenLe := Nat.zero_le 16
  tailZero := isBytes_zero _
  errNoResult _ := rfl
  baseAligned := hbase

/-- Settles O47: by the kinds of step, the engine's by what a body does to the key and to the results. -/
theorem everyStepKeepsInvariant : Obligations.EveryStepKeepsInvariant := by
  intro s t h hst
  rcases step_next_cases hst with hd | hblock | ⟨off, v, rest, _, _, _, rfl⟩ | ⟨rest, _, rfl⟩
  · exact step_due_keeps_stateInv h hd hst
  · rw [← stateInv_blockPart, hblock, stateInv_blockPart]
    exact h
  · refine writeReg_keeps_stateInv ?_ _ _
    rwa [← stateInv_blockPart, blockPart_takeOp, stateInv_blockPart]
  · exact stateInv_resetBlock h.baseAligned

/-- Settles O48: the reset state is what reset makes of itself. -/
theorem resetStateMeetsInvariant : Obligations.ResetStateMeetsInvariant :=
  stateInv_resetBlock (s := State.reset) rfl

/-! A keyed block is not zeroed. -/

/-- R215: RK1 of the all-zero key. -/
theorem nextRoundKey_zero : nextRoundKey 0x01 0 = 0x62636363626363636263636362636363 := by decide

/-- R215: no key has an all-zero schedule, since RK0 is the key and the zero key has a nonzero RK1. -/
theorem keyExpansion_ne_zero (k : Block) : keyExpansion k ≠ KeySchedule.zero := by
  intro h
  obtain ⟨hrk0, hrk1, _⟩ := keyExpansion_chain k
  rw [h] at hrk1
  exact absurd (hrk1.trans nextRoundKey_zero) (by decide)

/-- Settles O49: KS is the schedule of K, and no schedule is zero. -/
theorem keyedBlockReadsNotZeroed : Obligations.KeyedBlockReadsNotZeroed := by
  intro s h hkeyed
  rw [← Bool.not_eq_true, zeroed_iff]
  rintro ⟨_, _, hks, _⟩
  exact keyExpansion_ne_zero s.k (h.schedule hkeyed ▸ hks)

end Sys2Proof.Proofs

/-! PROOFS. The engine's step: what it runs, what it ends, and which of its commands loads a key. -/

namespace Sys2Proof.Proofs

open Sys2Proof.Machine Sys2Proof.Safety Sys2Proof.Laws

/-- Settles O6: the two halves of the complete step are the statement's record updates, around `exec`. -/
theorem stepRunsDecodedCommand : Obligations.StepRunsDecodedCommand := by
  intro s i hd hdec
  have hrun : runCommand (startCommand s) = exec i (startCommand s) := by
    simp [runCommand, hdec]
  rw [step_of_due hd, completeStep, hrun]
  rfl

/-- Settles O8: the epilogue ends the command, and neither an illegal word nor a body touches the rest. -/
theorem everyCompleteStepEndsItsCommand : Obligations.EveryCompleteStepEndsItsCommand := by
  intro s hd
  rcases step_due_cases hd with ⟨_, _, e⟩ | ⟨i, u, _, hexec, e⟩
  · exact ⟨_, e, rfl, rfl, rfl, rfl, rfl, rfl, rfl, rfl, rfl, rfl⟩
  · obtain ⟨u', hu', hframe⟩ := exec_next i (startCommand s)
    obtain rfl : u' = u := Host.Outcome.next.inj (hu'.symm.trans hexec)
    exact ⟨_, e, rfl, rfl, rfl, hframe⟩

/-- The engine's step leaves AB and OVR (R37, R45). -/
theorem step_due_ab_ovr {s t : State} (hd : engineDue s = true) (h : step s = .next t) :
    t.ab = s.ab ∧ t.ovr = s.ovr := by
  obtain ⟨u, hu, _, _, _, hab, hovr, _⟩ := everyCompleteStepEndsItsCommand s hd
  obtain rfl : u = t := Host.Outcome.next.inj (hu.symm.trans h)
  exact ⟨hab, hovr⟩

/-! The address buffer. -/

/-- Settles O52: of the kinds of step, only a write to an ADDRn and reset touch AB. -/
theorem onlyTheHostChangesTheAddressBuffer : Obligations.OnlyTheHostChangesTheAddressBuffer := by
  intro s t hst hab
  rcases step_next_cases hst with hd | hblock | ⟨off, v, rest, ⟨hdue, hhost⟩, ho, hm, rfl⟩ | ⟨rest, ⟨hdue, hhost⟩, rfl⟩
  · exact absurd (step_due_ab_ovr hd hst).1 hab
  · exact absurd (congrArg State.ab hblock) hab
  · refine ⟨hdue, .inr ?_⟩
    rcases writeReg_cases (regAt off) v (takeOp rest s) with ⟨_, _, e⟩ | ⟨_, _, e⟩ | ⟨hb, j, hreg, e⟩ |
      ⟨_, _, _, e⟩ | ⟨_, e⟩
    case inr.inr.inl =>
      obtain ⟨hj, rfl⟩ := regAt_eq_addr ho hm hreg
      exact ⟨hb, j, v, rest, hj, hhost⟩
    all_goals rw [e] at hab; exact absurd rfl hab
  · exact ⟨hdue, .inl ⟨rest, hhost⟩⟩

/-! The key. -/

/-- R40, R43: no register write changes K or KEYED. -/
theorem writeReg_key (r : Reg) (v : Word) (s : State) :
    (writeReg r v s).k = s.k ∧ (writeReg r v s).keyed = s.keyed := by
  rcases writeReg_cases r v s with ⟨_, _, e⟩ | ⟨_, _, e⟩ | ⟨_, _, _, e⟩ | ⟨_, _, _, e⟩ | ⟨_, e⟩ <;> rw [e] <;>
    exact ⟨rfl, rfl⟩

/-- R40, R43: a body that does not load a key leaves K and KEYED, or zeroes both. -/
theorem exec_key_cases {i : Instr} {s t : State} (h : exec i s = .next t) :
    (t.k = s.k ∧ t.keyed = s.keyed) ∨ (t.k = 0 ∧ t.keyed = false) ∨
    (∃ slen asc, i = .setup slen asc ∧ 32 ≤ slen ∧ ¬ (asc = true ∧ stageNotAscii s.stage = true) ∧
      t.k = stageKey s.stage ∧ t.keyed = true) := by
  rcases exec_cases h with ⟨e, _, rfl⟩ | rfl | ⟨slen, asc, hi, hlen, hasc, rfl⟩ | rfl | ⟨l, _, rfl⟩ | ⟨l, _, rfl⟩
  case inr.inr.inl => exact .inr (.inr ⟨slen, asc, hi, hlen, hasc, rfl, rfl⟩)
  case inr.inl | inr.inr.inr.inl => exact .inr (.inl ⟨rfl, rfl⟩)
  all_goals exact .inl ⟨rfl, rfl⟩

/-- Keeping K and KEYED, or zeroing both, is no load: K takes no new nonzero value, and KEYED does not rise. -/
theorem not_load_of_kept_or_zeroed {s t : State}
    (h : (t.k = s.k ∧ t.keyed = s.keyed) ∨ (t.k = 0 ∧ t.keyed = false)) :
    ¬ ((t.k ≠ s.k ∧ t.k ≠ 0) ∨ (s.keyed = false ∧ t.keyed = true)) := by
  rcases h with ⟨hk, hkeyed⟩ | ⟨hk, hkeyed⟩ <;> simp_all

/-- R124: bit 7 of a byte is set exactly from 0x80 on. -/
theorem getLsbD_seven_iff (b : Byte) : b.getLsbD 7 = true ↔ 0x80 ≤ b.toNat := by
  have h : b.getLsbD 7 = decide (0x80 ≤ b.toNat) := b.msb_eq_getLsbD_last.symm.trans b.msb_eq_decide
  rw [h, decide_eq_true_iff]

/-- R124: the ASCII check passes exactly when every staged byte is below 0x80. -/
theorem not_stageNotAscii_iff {st : Secret} :
    ¬ stageNotAscii st = true ↔ ∀ i, i < 32 → (stageByte st i).toNat < 0x80 := by
  simp only [stageNotAscii_iff, getLsbD_seven_iff, not_exists, not_and, Nat.not_le]

/-- R121: the first sixteen staged bytes are those of the key. -/
theorem byteOf_stageKey (st : Secret) {i : Nat} (hi : i < 16) : byteOf (stageKey st) i = stageByte st i := by
  rw [stageByte, if_pos hi]

/-- Settles O51: every other step leaves K and KEYED or zeroes both. -/
theorem onlySetupLoadsAKey : Obligations.OnlySetupLoadsAKey := by
  intro s t hst hload
  rcases step_next_cases hst with hd | hblock | ⟨off, v, rest, _, _, _, rfl⟩ | ⟨rest, _, rfl⟩
  · obtain ⟨u, rfl, rfl | ⟨i, hdec, hexec⟩⟩ := step_due_next hd hst
    · exact absurd hload (not_load_of_kept_or_zeroed (.inl ⟨rfl, rfl⟩))
    · rcases exec_key_cases hexec with hsame | hzero | ⟨slen, asc, rfl, hlen, hasc, hk, hkeyed⟩
      · exact absurd hload (not_load_of_kept_or_zeroed (.inl hsame))
      · exact absurd hload (not_load_of_kept_or_zeroed (.inr hzero))
      · exact ⟨hd, slen, asc, hdec, hlen, fun ha => not_stageNotAscii_iff.mp fun hn => hasc ⟨ha, hn⟩, hkeyed,
          fun i hi => (congrArg (byteOf · i) hk).trans (byteOf_stageKey s.stage hi)⟩
  · have hkept := And.intro (congrArg State.k hblock) (congrArg State.keyed hblock)
    exact absurd hload (not_load_of_kept_or_zeroed (.inl hkept))
  · exact absurd hload (not_load_of_kept_or_zeroed (.inl (writeReg_key (regAt off) v (takeOp rest s))))
  · exact absurd hload (not_load_of_kept_or_zeroed (.inr ⟨rfl, rfl⟩))

/-! The operand. -/

/-- Two blocks that share their first 8n bits keep the same first n bytes. -/
theorem keepBytes_congr {n : Nat} {a b : Block} (h : ShareBits (8 * n) a b) : keepBytes n a = keepBytes n b := by
  refine BitVec.eq_of_getMsbD_eq fun i hi => ?_
  rw [getMsbD_keepBytes _ _ _ hi, getMsbD_keepBytes _ _ _ hi]
  split
  · exact h i ‹_›
  · rfl

/-- Settles O36: AB enters a transform only through its first l bytes. -/
theorem bytesBeyondTheLengthHaveNoEffect : Obligations.BytesBeyondTheLengthHaveNoEffect := by
  intro s other len fam l hk hr hshare
  have hkeep := keepBytes_congr hshare
  refine ⟨⟨_, exec_anon_ok hk hr, ?_⟩, ⟨_, exec_deanon_ok hk hr, ?_⟩⟩
  · rw [exec_anon_ok (s := { s with ab := other }) hk hr]
    simp only [anonymise, hkeep]
  · rw [exec_deanon_ok (s := { s with ab := other }) hk hr]
    simp only [deanonymise, hkeep]

end Sys2Proof.Proofs

/-! PROOFS. The host's accesses: what reads give, what writes change, and that neither shows a secret. -/

namespace Sys2Proof.Proofs

open Sys2Proof.Machine Sys2Proof.Safety Sys2Proof.Laws

/-! Writes. -/

/-- Settles O11: CMD is the guarded register that accepts a command when idle. -/
theorem acceptStepOnlyLatchesTheCommand : Obligations.AcceptStepOnlyLatchesTheCommand := by
  refine ⟨fun s v rest hturn hb => ?_, fun s v rest hturn hb => ?_, fun s t op rest hturn hb hop hst => ?_⟩
  · exact ⟨_, step_write_cmd hb hturn, rfl⟩
  · exact ⟨_, step_write_guarded_busy hturn hb (.inl rfl), rfl⟩
  · rw [step_of_host hturn.1 hturn.2] at hst
    rcases hostOp_next_cases hst with hblock | ⟨off, v, rfl, _, _, rfl⟩ | ⟨rfl, _⟩
    · rw [blockPart_takeOp] at hblock
      rw [eq_of_blockPart hblock]
      exact ⟨rfl, rfl, rfl, rfl, rfl, rfl, rfl, rfl, rfl, rfl, hb⟩
    · rcases writeReg_of_busy (s := takeOp rest s) hb (regAt off) v with e | e <;> rw [e] <;>
        exact ⟨rfl, rfl, rfl, rfl, rfl, rfl, rfl, rfl, rfl, rfl, hb⟩
    · exact absurd rfl hop

/-- R45: OVR rises only in a guarded write while BUSY = 1. -/
theorem writeReg_ovr_rises {r : Reg} {v : Word} {s : State} (h0 : s.ovr = false) (h1 : (writeReg r v s).ovr = true) :
    s.busy = true ∧ guarded r = true := by
  rcases writeReg_cases r v s with ⟨hb, hg, _⟩ | ⟨_, _, e⟩ | ⟨_, _, _, e⟩ | ⟨_, _, _, e⟩ | ⟨_, e⟩
  case inl => exact ⟨hb, hg⟩
  case inr.inl => rw [e] at h1; cases h1
  all_goals rw [e] at h1; exact absurd (h0.symm.trans h1) Bool.false_ne_true

/-- R45, R50: the only register write that clears OVR is the accept step's. -/
theorem writeReg_ovr_falls {r : Reg} {v : Word} {s : State} (h1 : s.ovr = true) (h0 : (writeReg r v s).ovr = false) :
    s.busy = false ∧ r = .cmd := by
  rcases writeReg_cases r v s with ⟨_, _, e⟩ | ⟨hb, hr, _⟩ | ⟨_, _, _, e⟩ | ⟨_, _, _, e⟩ | ⟨_, e⟩
  case inl => rw [e] at h0; cases h0
  case inr.inl => exact ⟨hb, hr⟩
  all_goals rw [e] at h0; exact absurd (h0.symm.trans h1) Bool.false_ne_true

/-- Settles O12: of the kinds of step, the engine's and the reads leave OVR, reset clears it, and a write is as R45
says. -/
theorem writesWhileBusySetOvrAndNothingElse : Obligations.WritesWhileBusySetOvrAndNothingElse := by
  refine ⟨fun s off v rest hturn hb hg => ⟨_, step_write_guarded_busy hturn hb hg, rfl⟩,
    fun s off v rest hturn _ ho hm hg => ⟨_, step_write_unguarded hturn ho hm hg, rfl⟩,
    fun s t hst h0 h1 => ?_, fun s t hst h1 h0 => ?_⟩
  · rcases step_next_cases hst with hd | hblock | ⟨off, v, rest, ⟨_, hhost⟩, ho, hm, rfl⟩ | ⟨rest, _, rfl⟩
    · rw [(step_due_ab_ovr hd hst).2, h0] at h1; cases h1
    · rw [eq_of_blockPart hblock] at h1; exact absurd (h0.symm.trans h1) Bool.false_ne_true
    · obtain ⟨hb, hg⟩ := writeReg_ovr_rises (s := takeOp rest s) h0 h1
      exact ⟨hb, off, v, rest, (guarded_regAt ho hm).mp hg, hhost⟩
    · cases h1
  · rcases step_next_cases hst with hd | hblock | ⟨off, v, rest, ⟨_, hhost⟩, ho, hm, rfl⟩ | ⟨rest, ⟨_, hhost⟩, rfl⟩
    · rw [(step_due_ab_ovr hd hst).2, h1] at h0; cases h0
    · rw [eq_of_blockPart hblock] at h0; exact absurd (h0.symm.trans h1) Bool.false_ne_true
    · obtain ⟨hb, hreg⟩ := writeReg_ovr_falls (s := takeOp rest s) h1 h0
      obtain rfl := regAt_eq_cmd ho hm hreg
      exact .inr ⟨hb, v, rest, hhost⟩
    · exact .inl ⟨rest, hhost⟩

/-- Settles O56: those registers are not guarded, so a write to them does nothing. -/
theorem writesToReadOnlyRegistersAreIgnored : Obligations.WritesToReadOnlyRegistersAreIgnored :=
  fun _ _ _ _ hoff hturn => ⟨_, step_write_readOnly hoff hturn, rfl, rfl, rfl⟩

/-! Reads. -/

/-- Settles O13: the first step is `setWord` on AB, and the second reads AB back. -/
theorem addressWordReadsBackAsLastWritten : Obligations.AddressWordReadsBackAsLastWritten := by
  intro s i j v rest hi hj hb hhost
  have hwrite := step_write_addr hi hb ⟨engineDue_idle hb, hhost⟩
  exact ⟨_, _, hwrite, step_read_addr hj ⟨engineDue_idle hb, rfl⟩, rfl,
    congrArg (· :: s.seen) (wordOf_setWord _ _ _ _ hj), fun m hm => byteOf_setWord _ _ _ _ hm⟩

/-- Settles O15: both registers read 0 whatever the state is. -/
theorem writeOnlyRegistersReadZero : Obligations.WriteOnlyRegistersReadZero :=
  fun _ _ _ hoff hturn => step_read_zero (hoff.imp_right .inl) hturn

/-- R33: a read of STATUS gives the STATUS word for some value of the free word, which shows only while BUSY = 1. -/
theorem step_read_status {s : State} {rest : List HostOp} (h : HostTurn s (.read (s.base + 0x004) 4) rest) :
    ∃ t free, step s = .next t ∧ t.seen = statusWord free s :: s.seen :=
  ⟨_, Config.busyWord s.draws, step_read h (by omega) (by omega), rfl⟩

/-- R33: STATUS of an idle block. -/
theorem statusWord_idle {s : State} (hb : s.busy = false) (free : Word) :
    statusWord free s = packStatus s.rlen s.err s.ovr (zeroed s) s.keyed false := by
  simp [statusWord, hb]

/-- R53: STATUS while a command is in flight. -/
theorem statusWord_busy {s : State} (hb : s.busy = true) (free : Word) :
    statusWord free s = packStatus (free.extractLsb' 8 5) (free.extractLsb' 4 4) s.ovr (free.getLsbD 2)
      (free.getLsbD 1) true := by
  simp [statusWord, hb]

/-- Settles O19: the fields of `packStatus`, and what ZEROED computes. -/
theorem idleStatusShowsItsFields : Obligations.IdleStatusShowsItsFields := by
  refine fun s rest => ⟨fun hturn hb => ?_, fun v hturn => ⟨_, step_write_readOnly (.inl rfl) hturn, rfl⟩⟩
  obtain ⟨t, free, hst, hseen⟩ := step_read_status hturn
  rw [statusWord_idle hb] at hseen
  obtain ⟨h0, h1, h2, h3, h4, h8, h13⟩ := packStatus_fields s.rlen s.err s.ovr (zeroed s) s.keyed false
  exact ⟨t, _, hst, hseen, h0, h1, by rw [h2, zeroed_iff], h3, h4, h8, h13⟩

/-- Settles O20: STATUS keeps three fields when busy; the other reads do not look at BUSY. -/
theorem readsWhileBusyFixTheseFields : Obligations.ReadsWhileBusyFixTheseFields := by
  refine fun s rest hb => ⟨fun hturn => ?_, fun j hj hturn => ?_, step_read_cap, fun off hoff hturn => ?_⟩
  · obtain ⟨t, free, hst, hseen⟩ := step_read_status hturn
    rw [statusWord_busy hb] at hseen
    obtain ⟨h0, _, _, h3, _, _, h13⟩ := packStatus_fields (free.extractLsb' 8 5) (free.extractLsb' 4 4) s.ovr
      (free.getLsbD 2) (free.getLsbD 1) true
    exact ⟨t, _, hst, hseen, h0, h3, h13⟩
  · exact ⟨_, step_read_addr hj hturn, rfl⟩
  · obtain ⟨t, hst, _, hseen⟩ := step_read_zero hoff hturn
    exact ⟨t, hst, hseen⟩

/-- Settles O21: CAP depends on the strap alone, and is not guarded. -/
theorem capReadsItsConstant : Obligations.CapReadsItsConstant :=
  fun _ _ => ⟨step_read_cap, fun _ hturn => ⟨_, step_write_readOnly (.inr (.inl rfl)) hturn, rfl⟩⟩

/-- Settles O23: the fields of the reset state, and STATUS and CAP computed from them. -/
theorem stateRightAfterReset : Obligations.StateRightAfterReset := by
  refine ⟨rfl, rfl, rfl, rfl, rfl, rfl, ?_, rfl, rfl, rfl, rfl, rfl, rfl, rfl, ?_, capWord_eq⟩
  · exact zeroed_iff.mpr ⟨rfl, rfl, rfl, rfl, rfl⟩
  · decide

/-! Secrets. Each host operation's public outcome depends only on the public view and ZEROED. -/

/-- R56: no register shows more of the block than its public view and ZEROED. -/
theorem readReg_of_publicView {s t : State} (hview : publicView s = publicView t) (hz : zeroed s = zeroed t)
    (r : Reg) : readReg r s = readReg r t := by
  have hread := congrArg (readReg r) hview
  cases r
  case status =>
    simp only [publicView, State.mk.injEq] at hview
    obtain ⟨hbusy, _, hkeyed, hovr, herr, hrlen, _, _, _, _, _, _, _, _, _, _, _, _, hdraws⟩ := hview
    simp only [readReg, statusWord, hbusy, hkeyed, hovr, herr, hrlen, hdraws, hz]
  all_goals exact hread

theorem publicView_takeOp (rest : List HostOp) (s : State) :
    publicView (takeOp rest s) = takeOp rest (publicView s) := rfl

theorem publicView_resetBlock (s : State) : publicView (resetBlock s) = resetBlock (publicView s) := rfl

/-- What a write leaves public depends only on what was public: a SECRETn write is seen by OVR at most. -/
theorem publicView_writeReg (r : Reg) (v : Word) (s : State) :
    publicView (writeReg r v s) = publicView (writeReg r v (publicView s)) := by
  cases hb : s.busy <;> cases r <;> simp [writeReg, publicView, ignoreWrite, acceptCommand, hb]

/-- A read adds the word read to the public view. -/
theorem publicView_recordRead (r : Reg) (s : State) : publicView (recordRead r s) =
    { publicView s with seen := readReg r s :: (publicView s).seen, draws := (publicView s).draws + 1 } := rfl

theorem publicView_recordRead_congr {s t : State} (hview : publicView s = publicView t) (hz : zeroed s = zeroed t)
    (r : Reg) : publicView (recordRead r s) = publicView (recordRead r t) := by
  rw [publicView_recordRead, publicView_recordRead, hview, readReg_of_publicView hview hz r]

/-- A poll of WAIT reads STATUS and goes on by BUSY, both of them public. -/
theorem publicView_hostPoll_congr {s t : State} (hview : publicView s = publicView t) (hz : zeroed s = zeroed t) :
    publicView (hostPoll s) = publicView (hostPoll t) := by
  have hread := publicView_recordRead_congr hview hz .status
  have hbusy : s.busy = t.busy := (congrArg State.busy hview :)
  have hhost : s.host = t.host := (congrArg State.host hview :)
  rcases hostPoll_cases s with ⟨hs, es⟩ | ⟨hs, es⟩ <;> rcases hostPoll_cases t with ⟨ht, et⟩ | ⟨ht, et⟩ <;>
    rw [es, et]
  · exact congrArg₂ (fun (u : State) ops => { u with host := .wait :: ops }) hread hhost
  · rw [hs, ht] at hbusy; cases hbusy
  · rw [hs, ht] at hbusy; cases hbusy
  · exact hread

/-- R56: one host operation ends the same way for the host in two states it cannot tell apart. -/
theorem hostOp_sameToHost {s t : State} (hview : publicView s = publicView t) (hz : zeroed s = zeroed t)
    (op : HostOp) : SameToHost (hostOp op s) (hostOp op t) := by
  have hbase : s.base = t.base := (congrArg State.base hview :)
  cases op with
  | read addr width =>
    simp only [hostOp, hostRead, hbase]
    cases accessOffset t.base addr width with
    | none => exact rfl
    | some off => exact publicView_recordRead_congr hview hz (regAt off)
  | write addr width v =>
    simp only [hostOp, hostWrite, hbase]
    cases accessOffset t.base addr width with
    | none => exact rfl
    | some off =>
      calc publicView (writeReg (regAt off) v s)
        _ = publicView (writeReg (regAt off) v (publicView t)) := by rw [publicView_writeReg, hview]
        _ = publicView (writeReg (regAt off) v t) := (publicView_writeReg _ _ _).symm
  | wait => exact publicView_hostPoll_congr hview hz
  | reset =>
    show publicView (resetBlock s) = publicView (resetBlock t)
    rw [publicView_resetBlock, publicView_resetBlock, hview]

/-- Settles O50: the two states take the same host operation, which shows no secret. -/
theorem secretsNeverReachTheHost : Obligations.SecretsNeverReachTheHost := by
  intro s t hdue hview hz
  have hhost : t.host = s.host := (congrArg State.host hview).symm
  have hdue' : engineDue t = false := (congrArg engineDue hview).symm.trans hdue
  cases hs : s.host with
  | nil =>
    simp only [step, hdue, hdue', hostStep, hhost, hs]
    exact hview
  | cons op rest =>
    rw [step_of_host hdue hs, step_of_host hdue' (hhost.trans hs)]
    refine hostOp_sameToHost (s := takeOp rest s) (t := takeOp rest t) ?_ hz op
    rw [publicView_takeOp, publicView_takeOp, hview]

end Sys2Proof.Proofs

/-! PROOFS. The bus: which accesses the window accepts and what stops the machine, what the host's steps do to its list
and its log, and where the bytes of a buffer sit in the words of its registers. -/

namespace Sys2Proof.Proofs

open Sys2Proof.Machine Sys2Proof.Safety Sys2Proof.Laws

/-! Which accesses the window accepts. -/

/-- R75: a refused access of the host is a fault. -/
theorem step_refused {s : State} {addr width : Nat} {op : HostOp} {rest : List HostOp}
    (hop : op = .read addr width ∨ ∃ v, op = .write addr width v) (hturn : HostTurn s op rest)
    (hill : ¬ ∃ off, LegalAccess s.base addr width off) : step s = .fault (.busError addr width) := by
  have hnone : accessOffset s.base addr width = none := accessOffset_eq_none.mpr (not_exists.mp hill)
  rw [step_of_host hturn.1 hturn.2]
  rcases hop with rfl | ⟨v, rfl⟩
  · simp [hostOp, hostRead, hnone]
  · simp [hostOp, hostWrite, hnone]

/-- Settles O17: a legal access is a `step_read` or a `step_write`, and any other is refused. -/
theorem onlyAlignedWordsOfTheWindowAreAccepted : Obligations.OnlyAlignedWordsOfTheWindowAreAccepted := by
  refine fun s addr width v op rest hop hturn => ⟨?_, step_refused (hop.imp_right fun h => ⟨v, h⟩) hturn⟩
  rintro ⟨off, rfl, rfl, ho, hm⟩
  rcases hop with rfl | rfl
  · exact ⟨_, step_read hturn ho hm⟩
  · exact ⟨_, step_write hturn ho hm⟩

/-- A host with nothing left to do changes nothing (log 8). -/
theorem step_of_noHost {s : State} (hd : engineDue s = false) (hh : s.host = []) : step s = .next s := by
  rw [step, hd, hostStep, hh]
  rfl

/-- Settles O55: the engine's step and that of a host with nothing to do answer a next state, and so does every host
operation but a refused access. -/
theorem onlyRefusedAccessesStopTheMachine : Obligations.OnlyRefusedAccessesStopTheMachine := by
  intro s
  cases hd : engineDue s with
  | true =>
    obtain ⟨t, hst, _⟩ := everyCompleteStepEndsItsCommand s hd
    exact .inl ⟨t, hst⟩
  | false =>
    cases hh : s.host with
    | nil => exact .inl ⟨s, step_of_noHost hd hh⟩
    | cons op rest =>
      have hst := step_of_host hd hh
      rcases hostOp_cases op (takeOp rest s) with ⟨_, _, _, _, _, e⟩ | ⟨_, _, _, _, _, _, e⟩ |
        ⟨addr, width, hop, hill, e⟩ | ⟨_, e⟩ | ⟨_, e⟩ <;> rw [e] at hst
      case inr.inr.inl => exact .inr ⟨addr, width, op, rest, hst, ⟨hd, hh⟩, hop, not_exists.mpr hill⟩
      all_goals exact .inl ⟨_, hst⟩

/-! What the host's steps do to its list and its log. -/

/-- A host write leaves the host's list, its log and the straps. -/
theorem writeReg_host_frame (r : Reg) (v : Word) (s : State) :
    (writeReg r v s).host = s.host ∧ (writeReg r v s).seen = s.seen ∧ (writeReg r v s).base = s.base ∧
      (writeReg r v s).hasU32 = s.hasU32 := by
  rcases writeReg_cases r v s with ⟨_, _, e⟩ | ⟨_, _, e⟩ | ⟨_, _, _, e⟩ | ⟨_, _, _, e⟩ | ⟨_, e⟩ <;> rw [e] <;>
    exact ⟨rfl, rfl, rfl, rfl⟩

/-- R80, R109: a host operation that ends in a next state puts at most itself back, a WAIT while BUSY = 1; it logs at
most one word, and leaves the straps. -/
theorem hostOp_host_frame {op : HostOp} {s t : State} (h : hostOp op s = .next t) :
    (t.host = s.host ∨ (op = .wait ∧ s.busy = true ∧ t.host = op :: s.host)) ∧
    (t.seen = s.seen ∨ ∃ v, t.seen = v :: s.seen) ∧ t.base = s.base ∧ t.hasU32 = s.hasU32 := by
  rcases hostOp_cases op s with ⟨_, _, off, _, _, e⟩ | ⟨_, _, v, off, _, _, e⟩ | ⟨_, _, _, _, e⟩ | ⟨rfl, e⟩ |
    ⟨_, e⟩ <;> rw [e] at h <;> cases h
  case inl => exact ⟨.inl rfl, .inr ⟨_, rfl⟩, rfl, rfl⟩
  case inr.inl =>
    obtain ⟨hhost, hseen, hbase, hu32⟩ := writeReg_host_frame (regAt off) v s
    exact ⟨.inl hhost, .inl hseen, hbase, hu32⟩
  case inr.inr.inr.inl =>
    rcases hostPoll_cases s with ⟨hb, e⟩ | ⟨_, e⟩ <;> rw [e]
    · exact ⟨.inr ⟨rfl, hb, rfl⟩, .inr ⟨_, rfl⟩, rfl, rfl⟩
    · exact ⟨.inl rfl, .inr ⟨_, rfl⟩, rfl, rfl⟩
  case inr.inr.inr.inr => exact ⟨.inl rfl, .inl rfl, rfl, rfl⟩

/-- Settles O54: the step is the host's operation on the state from whose list it has been taken. -/
theorem hostOperationsAreTakenInOrder : Obligations.HostOperationsAreTakenInOrder := by
  intro s t op rest hturn hst
  rw [step_of_host hturn.1 hturn.2] at hst
  exact hostOp_host_frame hst

/-! What reads and reserved offsets do. -/

/-- Settles O16: a legal read is `recordRead`, which only logs a word. -/
theorem readsHaveNoSideEffect : Obligations.ReadsHaveNoSideEffect :=
  fun _ _ _ ho hm hturn => ⟨_, _, step_read hturn ho hm, rfl, rfl, rfl⟩

/-- R74: a reserved offset lies in the window, and is not one that R45 guards. -/
theorem reservedOffset_unguarded {off : Nat} (h : ReservedOffset off) : off < 0x100 ∧ ¬ GuardedOffset off := by
  unfold ReservedOffset at h
  refine ⟨by omega, ?_⟩
  rintro (hg | ⟨_, _, hg⟩ | ⟨_, _, hg⟩) <;> omega

/-- Settles O18: a reserved offset reads 0, and is not guarded, so a write to it does nothing. -/
theorem reservedOffsetsReadZeroAndIgnoreWrites : Obligations.ReservedOffsetsReadZeroAndIgnoreWrites := by
  intro s off v rest hr hm
  obtain ⟨ho, hg⟩ := reservedOffset_unguarded hr
  exact ⟨step_read_zero (.inr (.inr ⟨hr, hm⟩)), fun hturn => ⟨_, step_write_unguarded hturn ho hm hg, rfl, rfl⟩⟩

/-! The byte lanes. -/

/-- R14: `word_be` as a number. -/
theorem toNat_wordBe (b0 b1 b2 b3 : Byte) : (wordBe b0 b1 b2 b3).toNat =
    b0.toNat * 2 ^ 24 + b1.toNat * 2 ^ 16 + b2.toNat * 2 ^ 8 + b3.toNat := by
  have happend {n : Nat} (x : BitVec n) (y : Byte) : (x ++ y).toNat = x.toNat * 2 ^ 8 + y.toNat := by
    rw [BitVec.toNat_append, ← Nat.shiftLeft_add_eq_or_of_lt y.isLt, Nat.shiftLeft_eq]
  simp only [wordBe, happend]
  omega

/-- R38: a read of RESj of an idle block gives its word. -/
theorem step_read_res {s : State} {j : Nat} {rest : List HostOp} (hj : j < 4) (hb : s.busy = false)
    (h : HostTurn s (.read (s.base + (0x020 + 4 * j)) 4) rest) :
    ∃ t, step s = .next t ∧ t.seen = wordOf s.rb j :: s.seen := by
  refine ⟨_, step_read h (by omega) (by omega), ?_⟩
  simp [regAt_res hj, readReg, hb]

/-- R39: a write to SECRETj of an idle block stores its word in STAGE. -/
theorem step_write_secret {s : State} {j : Nat} {v : Word} {rest : List HostOp} (hj : j < 8) (hb : s.busy = false)
    (h : HostTurn s (.write (s.base + (0x040 + 4 * j)) 4 v) rest) :
    step s = .next { takeOp rest s with stage := setStageWord s.stage j v } := by
  rw [step_write h (by omega) (by omega), regAt_secret hj]
  simp [writeReg, hb]

/-- R71: the word written to SECRETj is the four bytes 4j … 4j+3 of STAGE, byte 4j most significant. -/
theorem wordBe_stageByte_setStageWord (st : Secret) {j : Nat} (v : Word) (hj : j < 8) :
    wordBe (stageByte (setStageWord st j v) (4 * j)) (stageByte (setStageWord st j v) (4 * j + 1))
      (stageByte (setStageWord st j v) (4 * j + 2)) (stageByte (setStageWord st j v) (4 * j + 3)) = v := by
  have hlane : ∀ i, i < 4 → stageByte (setStageWord st j v) (4 * j + i) = bytesBe v i := fun i hi => by
    rw [stageByte_setStageWord _ _ _ _ hj (by omega), if_pos (by omega), show (4 * j + i) % 4 = i by omega]
  rw [hlane 1 (by omega), hlane 2 (by omega), hlane 3 (by omega), ← Nat.add_zero (4 * j), hlane 0 (by omega),
    wordBe_bytesBe]

/-- Settles O14: the words read are `wordOf` a buffer, and the write is `setStageWord`. -/
theorem buffersSitInBigEndianLanes : Obligations.BuffersSitInBigEndianLanes := by
  intro s j rest hb
  have hidle := engineDue_idle hb
  refine ⟨fun hj hhost => ?_, fun hj hhost => ?_, fun v hj hhost => ?_⟩
  · exact ⟨_, _, step_read_addr hj ⟨hidle, hhost⟩, rfl, toNat_wordBe _ _ _ _⟩
  · obtain ⟨t, hst, hseen⟩ := step_read_res hj hb ⟨hidle, hhost⟩
    exact ⟨t, _, hst, hseen, toNat_wordBe _ _ _ _⟩
  · refine ⟨_, step_write_secret hj hb ⟨hidle, hhost⟩, rfl, ?_, fun m hm hne => ?_⟩
    · rw [← toNat_wordBe, wordBe_stageByte_setStageWord _ _ hj]
    · rw [stageByte_setStageWord _ _ _ _ hj hm, if_neg hne]

end Sys2Proof.Proofs

/-! PROOFS. The encoding: every command has one word and every accepted word one command (30_encoding.md). A word is
read by arithmetic: its opcode is `w.toNat % 16`, and its reserved top bits are `w.toNat / 2 ^ lo`. -/

namespace Sys2Proof.Proofs

open Sys2Proof.Safety Sys2Proof.Laws

/-! The decoder, row by row: the converses of `decode_ok_cases`, and the words it rejects. -/

theorem decode_setupRow {hasU32 : Bool} {w : Word} (hopc : w.toNat % 16 = 1) (htop : w.toNat / 2 ^ 11 = 0) :
    decode hasU32 w = .ok (.setup (slenOf w) (ascOf w)) := by
  simp [decode, opcOf_eq, hopc, (topField_eq_zero w 11 21 rfl).mpr htop]

theorem decode_anonRow {hasU32 : Bool} {w : Word} (hopc : w.toNat % 16 = 2) (htop : w.toNat / 2 ^ 12 = 0) :
    decode hasU32 w = .ok (.anon (lenOf w) (famOf w)) := by
  simp [decode, opcOf_eq, hopc, (topField_eq_zero w 12 20 rfl).mpr htop]

theorem decode_deanonRow {hasU32 : Bool} {w : Word} (hopc : w.toNat % 16 = 3) (htop : w.toNat / 2 ^ 12 = 0) :
    decode hasU32 w = .ok (.deanon (lenOf w) (famOf w)) := by
  simp [decode, opcOf_eq, hopc, (topField_eq_zero w 12 20 rfl).mpr htop]

theorem decode_releaseRow {hasU32 : Bool} {w : Word} (hopc : w.toNat % 16 = 4) (htop : w.toNat / 2 ^ 4 = 0) :
    decode hasU32 w = .ok .release := by
  simp [decode, opcOf_eq, hopc, (topField_eq_zero w 4 28 rfl).mpr htop]

theorem decode_anonU32Row {w : Word} (hopc : w.toNat % 16 = 5) (htop : w.toNat / 2 ^ 4 = 0) :
    decode true w = .ok .anonU32 := by
  simp [decode, opcOf_eq, hopc, (topField_eq_zero w 4 28 rfl).mpr htop]

/-- R107: opcodes 0x0 and 0x6 … 0xF have no row. -/
theorem decode_reservedOpcode {hasU32 : Bool} {w : Word} (h : w.toNat % 16 = 0 ∨ 6 ≤ w.toNat % 16) :
    decode hasU32 w = .error .reservedOpcode := by
  unfold decode
  rw [opcOf_eq]
  split
  case h_6 => rfl
  all_goals omega

/-- R102, R107: the words off the rule's list are those of the five rows. -/
theorem legalWord_iff_row {hasU32 : Bool} {w : Word} : ¬ IllegalWord hasU32 w ↔
    (w.toNat % 16 = 1 ∧ w.toNat / 2 ^ 11 = 0) ∨ (w.toNat % 16 = 2 ∧ w.toNat / 2 ^ 12 = 0) ∨
    (w.toNat % 16 = 3 ∧ w.toNat / 2 ^ 12 = 0) ∨ (w.toNat % 16 = 4 ∧ w.toNat / 2 ^ 4 = 0) ∨
    (w.toNat % 16 = 5 ∧ w.toNat / 2 ^ 4 = 0 ∧ hasU32 = true) := by
  cases hasU32 <;> simp only [IllegalWord, reduceCtorEq, and_false, and_true, false_or, or_false] <;> omega

/-- R107: a word has a command exactly when it is not on the rule's list. -/
theorem decode_ok_iff_legal {hasU32 : Bool} {w : Word} :
    (∃ i, decode hasU32 w = .ok i) ↔ ¬ IllegalWord hasU32 w := by
  rw [legalWord_iff_row]
  constructor
  · rintro ⟨i, h⟩
    rcases decode_ok_cases h with ⟨hopc, htop, _⟩ | ⟨hopc, htop, _⟩ | ⟨hopc, htop, _⟩ | ⟨hopc, htop, _⟩ |
      ⟨hopc, htop, hu, _⟩
    · exact .inl ⟨hopc, htop⟩
    · exact .inr (.inl ⟨hopc, htop⟩)
    · exact .inr (.inr (.inl ⟨hopc, htop⟩))
    · exact .inr (.inr (.inr (.inl ⟨hopc, htop⟩)))
    · exact .inr (.inr (.inr (.inr ⟨hopc, htop, hu⟩)))
  · rintro (⟨hopc, htop⟩ | ⟨hopc, htop⟩ | ⟨hopc, htop⟩ | ⟨hopc, htop⟩ | ⟨hopc, htop, rfl⟩)
    · exact ⟨_, decode_setupRow hopc htop⟩
    · exact ⟨_, decode_anonRow hopc htop⟩
    · exact ⟨_, decode_deanonRow hopc htop⟩
    · exact ⟨_, decode_releaseRow hopc htop⟩
    · exact ⟨_, decode_anonU32Row hopc htop⟩

/-- Settles O4: the decoder answers a command or a rejection, and a command exactly when the word is legal. -/
theorem decoderRejectsExactlyIllegalWords : Obligations.DecoderRejectsExactlyIllegalWords := by
  intro hasU32 w
  rw [← not_iff_not, ← decode_ok_iff_legal]
  cases decode hasU32 w <;> simp

/-! The fields of a word, and the words with given fields (R101). -/

theorem famCode_familyOf (c : Nat) : famCode (familyOf c) = c := by
  rcases familyOf_cases c with ⟨rfl, e⟩ | ⟨rfl, e⟩ | ⟨rfl, e⟩ | ⟨_, e⟩ <;> rw [e] <;> rfl

theorem wf_familyOf {c : Nat} (hc : c < 8) : (familyOf c).wf = true := by
  rcases familyOf_cases c with ⟨_, e⟩ | ⟨_, e⟩ | ⟨_, e⟩ | ⟨_, e⟩ <;> simp [e, Family.wf]
  omega

/-- R106: a family has one code, and the code fits FAM. -/
theorem familyOf_famCode {fam : Family} (h : fam.wf = true) : familyOf (famCode fam) = fam ∧ famCode fam < 8 := by
  cases fam with
  | other c =>
    obtain ⟨hlo, hhi⟩ : 3 ≤ c ∧ c ≤ 7 := by simpa [Family.wf] using h
    refine ⟨?_, Nat.lt_succ_of_le hhi⟩
    rcases familyOf_cases c with ⟨_, _⟩ | ⟨_, _⟩ | ⟨_, _⟩ | ⟨_, e⟩
    case inr.inr.inr => exact e
    all_goals omega
  | raw | ipv4 | ipv6 => exact ⟨rfl, by decide⟩

/-- Two fields side by side, as a number. -/
theorem toNat_append_add {m n : Nat} (x : BitVec m) (y : BitVec n) :
    (x ++ y).toNat = x.toNat * 2 ^ n + y.toNat := by
  rw [BitVec.toNat_append, ← Nat.shiftLeft_add_eq_or_of_lt y.isLt, Nat.shiftLeft_eq]

/-- Format S: the word with SLEN and ASC given is the one word whose fields these are. -/
theorem encode_setup_eq_iff {slen : Nat} {asc : Bool} {w : Word} (hs : slen < 64) :
    encode (.setup slen asc) = w ↔
      w.toNat % 16 = 1 ∧ w.toNat / 2 ^ 11 = 0 ∧ slenOf w = slen ∧ ascOf w = asc := by
  have hnum : (encode (.setup slen asc)).toNat = asc.toNat * 2 ^ 10 + slen * 2 ^ 4 + 1 := by
    simp only [encode, toNat_append_add, BitVec.toNat_ofNat, BitVec.toNat_ofBool]
    omega
  rw [← BitVec.toNat_inj, hnum, slenOf_eq, ascOf_eq]
  cases asc <;> simp only [Bool.toNat_false, Bool.toNat_true, decide_eq_true_eq, decide_eq_false_iff_not] <;> omega

/-- Format A: the word with LEN and FAM given is the one word whose fields these are. -/
theorem formatA_eq_iff {opc : BitVec 4} {len : Nat} {fam : Family} {w : Word} (hl : len < 32) (hf : fam.wf = true) :
    0#20 ++ BitVec.ofNat 3 (famCode fam) ++ BitVec.ofNat 5 len ++ opc = w ↔
      w.toNat % 16 = opc.toNat ∧ w.toNat / 2 ^ 12 = 0 ∧ lenOf w = len ∧ famOf w = fam := by
  obtain ⟨hcode, hc⟩ := familyOf_famCode hf
  have hfam : famOf w = fam ↔ w.toNat / 2 ^ 9 % 8 = famCode fam := by
    rw [famOf_eq]
    exact ⟨fun h => by rw [← h, famCode_familyOf], fun h => by rw [h, hcode]⟩
  have hnum : (0#20 ++ BitVec.ofNat 3 (famCode fam) ++ BitVec.ofNat 5 len ++ opc : Word).toNat =
      famCode fam * 2 ^ 9 + len * 2 ^ 4 + opc.toNat := by
    simp only [toNat_append_add, BitVec.toNat_ofNat]
    omega
  have := opc.isLt
  rw [← BitVec.toNat_inj, hnum, lenOf_eq, hfam]
  omega

/-- Format N: the word is its opcode. -/
theorem formatN_eq_iff {opc : BitVec 4} {w : Word} :
    0#28 ++ opc = w ↔ w.toNat % 16 = opc.toNat ∧ w.toNat / 2 ^ 4 = 0 := by
  have hnum : (0#28 ++ opc : Word).toNat = opc.toNat := by
    rw [toNat_append_add]
    simp
  have := opc.isLt
  rw [← BitVec.toNat_inj, hnum]
  omega

theorem lenOf_lt (w : Word) : lenOf w < 32 := by
  rw [lenOf_eq]
  omega

theorem wf_famOf (w : Word) : (famOf w).wf = true := by
  rw [famOf_eq]
  exact wf_familyOf (by omega)

/-! The round trips. -/

/-- Settles O1: the word of a command has the command's fields, so it decodes by the command's row. -/
theorem encodeThenDecodeReturnsCommand : Obligations.EncodeThenDecodeReturnsCommand := by
  intro hasU32 i hwf hpresent
  cases i with
  | setup slen asc =>
    obtain ⟨hopc, htop, hslen, hasc⟩ := (encode_setup_eq_iff (of_decide_eq_true hwf)).mp rfl
    rw [decode_setupRow hopc htop, hslen, hasc]
  | anon len fam =>
    obtain ⟨hl, hf⟩ : len < 32 ∧ fam.wf = true := by simpa [Instr.wf] using hwf
    obtain ⟨hopc, htop, hlen, hfam⟩ := (formatA_eq_iff hl hf).mp (rfl : _ = encode (.anon len fam))
    rw [decode_anonRow hopc htop, hlen, hfam]
  | deanon len fam =>
    obtain ⟨hl, hf⟩ : len < 32 ∧ fam.wf = true := by simpa [Instr.wf] using hwf
    obtain ⟨hopc, htop, hlen, hfam⟩ := (formatA_eq_iff hl hf).mp (rfl : _ = encode (.deanon len fam))
    rw [decode_deanonRow hopc htop, hlen, hfam]
  | release =>
    obtain ⟨hopc, htop⟩ := formatN_eq_iff.mp (rfl : _ = encode .release)
    exact decode_releaseRow hopc htop
  | anonU32 =>
    obtain ⟨hopc, htop⟩ := formatN_eq_iff.mp (rfl : _ = encode .anonU32)
    obtain rfl : hasU32 = true := hpresent
    exact decode_anonU32Row hopc htop

/-- Settles O2: in each row that decodes, the word is the one with the decoded fields. -/
theorem decodedCommandEncodesToItsWord : Obligations.DecodedCommandEncodesToItsWord := by
  intro hasU32 w i h
  rcases decode_ok_cases h with ⟨hopc, htop, rfl⟩ | ⟨hopc, htop, rfl⟩ | ⟨hopc, htop, rfl⟩ | ⟨hopc, htop, rfl⟩ |
    ⟨hopc, htop, hu, rfl⟩
  · have hs : slenOf w < 64 := by
      rw [slenOf_eq]
      omega
    exact ⟨decide_eq_true hs, rfl, (encode_setup_eq_iff hs).mpr ⟨hopc, htop, rfl, rfl⟩⟩
  · exact ⟨by simp [Instr.wf, lenOf_lt, wf_famOf], rfl,
      (formatA_eq_iff (lenOf_lt w) (wf_famOf w)).mpr ⟨hopc, htop, rfl, rfl⟩⟩
  · exact ⟨by simp [Instr.wf, lenOf_lt, wf_famOf], rfl,
      (formatA_eq_iff (lenOf_lt w) (wf_famOf w)).mpr ⟨hopc, htop, rfl, rfl⟩⟩
  · exact ⟨rfl, rfl, formatN_eq_iff.mpr ⟨hopc, htop⟩⟩
  · exact ⟨rfl, hu, formatN_eq_iff.mpr ⟨hopc, htop⟩⟩

/-! The rows of the opcode map as masks (R102). -/

/-- A mask that holds OPC and the bits from `lo` up fixes the opcode and, as the match has nothing there, clears the
reserved bits. -/
theorem row_of_masked {w mask m : Word} (lo n : Nat) (h : w &&& mask = m)
    (hopc : mask.extractLsb' 0 4 = BitVec.allOnes 4 := by decide)
    (htop : mask.extractLsb' lo n = BitVec.allOnes n := by decide) (hm : m.extractLsb' lo n = 0#n := by decide)
    (hln : lo + n = 32 := by decide) : w.toNat % 16 = opcOf m ∧ w.toNat / 2 ^ lo = 0 := by
  subst h
  rw [BitVec.extractLsb'_and, htop, BitVec.and_allOnes] at hm
  refine ⟨?_, (topField_eq_zero w lo n hln).mp hm⟩
  rw [← opcOf_eq, opcOf, opcOf, BitVec.extractLsb'_and, hopc, BitVec.and_allOnes]

/-- R101: OPC under its own mask is the opcode. -/
theorem toNat_and_opcMask (w : Word) : (w &&& 0xF).toNat = w.toNat % 16 :=
  Nat.and_two_pow_sub_one_eq_mod w.toNat 4

/-- Settles O3: a decoded command's word is its encoding, which lies in its row; a masked word has the row's fields. -/
theorem wordSelectsItsOpcodeRow : Obligations.WordSelectsItsOpcodeRow := by
  intro hasU32 w
  have hencode {i : Instr} (h : decode hasU32 w = .ok i) : encode i = w := by
    obtain ⟨_, _, hword⟩ := decodedCommandEncodesToItsWord hasU32 w i h
    exact hword
  refine ⟨⟨?_, fun h => ?_⟩, ⟨?_, fun h => ?_⟩, ⟨?_, fun h => ?_⟩, ⟨fun h => ?_, fun h => ?_⟩,
    ⟨fun h => ?_, fun ⟨hu, h⟩ => ?_⟩, fun h => ?_⟩
  · rintro ⟨slen, asc, h⟩
    exact hencode h ▸ OpcodeRow.setup slen asc
  · obtain ⟨hopc, htop⟩ := row_of_masked 11 21 h
    exact ⟨_, _, decode_setupRow hopc htop⟩
  · rintro ⟨len, fam, h⟩
    exact hencode h ▸ OpcodeRow.anon len fam
  · obtain ⟨hopc, htop⟩ := row_of_masked 12 20 h
    exact ⟨_, _, decode_anonRow hopc htop⟩
  · rintro ⟨len, fam, h⟩
    exact hencode h ▸ OpcodeRow.deanon len fam
  · obtain ⟨hopc, htop⟩ := row_of_masked 12 20 h
    exact ⟨_, _, decode_deanonRow hopc htop⟩
  · exact hencode h ▸ OpcodeRow.release
  · obtain ⟨hopc, htop⟩ := row_of_masked 4 28 h
    exact decode_releaseRow hopc htop
  · obtain ⟨_, hpresent, hword⟩ := decodedCommandEncodesToItsWord hasU32 w _ h
    exact ⟨hpresent, hword ▸ OpcodeRow.anonU32⟩
  · obtain ⟨hopc, htop⟩ := row_of_masked 4 28 h
    exact hu ▸ decode_anonU32Row hopc htop
  · refine decode_reservedOpcode ?_
    rwa [← BitVec.toNat_inj, toNat_and_opcMask] at h

/-- Settles O5: sixteen fixed words, each evaluated. -/
theorem encodingExamplesDecode : Obligations.EncodingExamplesDecode := by
  unfold Obligations.EncodingExamplesDecode
  decide

end Sys2Proof.Proofs

/-! PROOFS. SETUP: what a command that passes its checks leaves (40_setup.md). -/

namespace Sys2Proof.Proofs

open Sys2Proof.Machine Sys2Proof.Laws

/-- R121: the last sixteen staged bytes are those of R. -/
theorem byteOf_stagePad (st : Secret) (i : Nat) : byteOf (stagePad st) i = stageByte st (16 + i) := by
  rw [stageByte, if_neg (by omega), Nat.add_sub_cancel_left]

/-- R120: a SETUP that passes its checks releases the old key, loads the new one and zeroes STAGE. -/
theorem exec_setup_ok {s : State} {slen : Nat} {asc : Bool} (hlen : 32 ≤ slen)
    (hasc : ¬ (asc = true ∧ stageNotAscii s.stage = true)) :
    exec (.setup slen asc) s = .next (zeroiseStage (loadKey (zeroiseKey s))) := by
  rw [exec, execSetup]
  rcases setupBody_cases slen asc (zeroiseKey s) with ⟨hshort | hbad, _⟩ | ⟨_, hload⟩
  · omega
  · exact absurd hbad hasc
  · rw [hload]

/-- Settles O24: both checks pass, and what the key load takes from STAGE is byte for byte its two halves. -/
theorem setupLoadsKeyScheduleAndPad : Obligations.SetupLoadsKeyScheduleAndPad := by
  intro s slen asc hlen hascii
  have hasc : ¬ (asc = true ∧ stageNotAscii s.stage = true) := fun ⟨ha, hn⟩ =>
    not_stageNotAscii_iff.mpr (hascii ha) hn
  exact ⟨zeroiseStage (loadKey (zeroiseKey s)), stagePad s.stage, exec_setup_ok hlen hasc, rfl,
    fun _ hi => byteOf_stageKey s.stage hi, fun i _ => byteOf_stagePad s.stage i⟩

end Sys2Proof.Proofs

/-! PROOFS. The forward cascade: its round inputs, its map on addresses of each length, and the commands that run it
(41_cascade.md). -/

namespace Sys2Proof.Proofs

open Sys2Proof.Machine Sys2Proof.Safety Sys2Proof.Laws

/-! The round input. -/

/-- Settles O57: the bits of the round input are a law, and the round bit is the top bit of a byte. -/
theorem roundInputIsPrefixThenPad : Obligations.RoundInputIsPrefixThenPad :=
  fun _ p s pos _ => ⟨fun i hi => getMsbD_buildX s p pos i hi, getLsbD_seven_iff _⟩

/-- R140: a byte of the round input that ends at or before `pos` is the source's. -/
theorem byteOf_buildX_before {s p : Block} {pos i : Nat} (hi : i < 16) (h : 8 * i + 8 ≤ pos) :
    byteOf (buildX s p pos) i = byteOf s i := by
  refine BitVec.eq_of_getMsbD_eq fun j hj => ?_
  rw [getMsbD_byteOf _ _ _ hi hj, getMsbD_byteOf _ _ _ hi hj, getMsbD_buildX _ _ _ _ (by omega), if_pos (by omega)]

/-- R140: a byte of the round input that begins at or after `pos` is the pad's. -/
theorem byteOf_buildX_from {s p : Block} {pos i : Nat} (hi : i < 16) (h : pos ≤ 8 * i) :
    byteOf (buildX s p pos) i = byteOf p i := by
  refine BitVec.eq_of_getMsbD_eq fun j hj => ?_
  rw [getMsbD_byteOf _ _ _ hi hj, getMsbD_byteOf _ _ _ hi hj, getMsbD_buildX _ _ _ _ (by omega), if_neg (by omega)]

/-- Settles O38: at each edge the bytes asked for lie wholly on one side of `pos`. -/
theorem roundInputsAtTheEdges : Obligations.RoundInputsAtTheEdges := by
  refine fun a p => ⟨block_ext fun i hi => byteOf_buildX_from hi (Nat.zero_le _), fun pos hpos hbit => ⟨?_, ?_⟩, ?_⟩
  · exact byteOf_buildX_from (by omega) (by omega)
  · exact fun i hi => byteOf_buildX_before (by omega) (by omega)
  · exact fun l pos i _ hpos hli hi => byteOf_buildX_from hi (by omega)

/-! The cascade as a map on addresses. -/

/-- R143: a bit of the forward result within the address's length. -/
theorem getMsbD_fwd_of_lt {k p a : Block} {l i : Nat} (hl : l ≤ 16) (hi : i < 8 * l) :
    (fwd k p a l).getMsbD i = (a.getMsbD i ^^ roundBit k p a i) := by
  rw [getMsbD_fwd _ _ _ _ _ hl (by omega), if_pos hi]

/-- R171: a bit of the inverse result within the address's length, solved for the anonymised bit. -/
theorem getMsbD_inv_xor_roundBit {k p b : Block} {l i : Nat} (hl : l ≤ 16) (hi : i < 8 * l) :
    ((inv k p b l).getMsbD i ^^ roundBit k p (inv k p b l) i) = b.getMsbD i := by
  have h := getMsbD_inv k p b l i hl (by omega)
  rw [if_pos hi] at h
  rw [h, Bool.xor_assoc, Bool.xor_self, Bool.xor_false]

/-- R152: adding each address's own round bits neither joins nor separates prefixes, since the round bit at i depends
only on the bits before i. -/
theorem shareBits_iff_xor_roundBit (k p a b : Block) (n : Nat) : ShareBits n a b ↔
    ∀ i, i < n → (a.getMsbD i ^^ roundBit k p a i) = (b.getMsbD i ^^ roundBit k p b i) := by
  constructor
  · intro h i hi
    rw [h i hi, roundBit_congr fun j hj => h j (by omega)]
  · intro h i
    induction i using Nat.strong_induction_on with
    | _ i ih =>
      intro hi
      have hprefix : ShareBits i a b := fun j hj => ih j hj (by omega)
      have hsum := h i hi
      rwa [roundBit_congr hprefix, Bool.xor_left_inj] at hsum

/-- Settles O40: the results' bits are the addresses' bits with their round bits added. -/
theorem prefixesArePreservedBothWays : Obligations.PrefixesArePreservedBothWays := by
  intro k p a b l n _ hl hn
  rw [shareBits_iff_xor_roundBit k p]
  refine forall₂_congr fun i hi => ?_
  rw [getMsbD_fwd_of_lt hl (by omega), getMsbD_fwd_of_lt hl (by omega)]

theorem isBytes_keepBytes (l : Nat) (a : Block) : IsBytes l (keepBytes l a) := by
  intro i hli hi
  rw [byteOf_keepBytes _ _ _ hi, if_neg (by omega)]

theorem keepBytes_of_isBytes {l : Nat} {a : Block} (h : IsBytes l a) : keepBytes l a = a := by
  refine block_ext fun i hi => ?_
  rw [byteOf_keepBytes _ _ _ hi]
  split
  · rfl
  · exact (h i (by omega) hi).symm

theorem isBytes_fwd (k p a : Block) (l : Nat) : IsBytes l (fwd k p a l) := isBytes_keepBytes l _

theorem isBytes_inv (k p b : Block) (l : Nat) : IsBytes l (inv k p b l) := isBytes_keepBytes l _

/-- An l-byte value is the first l bytes of every block with which it shares 8l bits. -/
theorem eq_keepBytes_of_shareBits {l : Nat} {x a : Block} (hx : IsBytes l x) (h : ShareBits (8 * l) x a) :
    x = keepBytes l a :=
  (keepBytes_of_isBytes hx).symm.trans (keepBytes_congr h)

/-- R173: the inverse cascade undoes the forward one, since both addresses give the same bits with their round bits
added. -/
theorem inv_fwd (k p a : Block) {l : Nat} (hl : l ≤ 16) : inv k p (fwd k p a l) l = keepBytes l a := by
  refine eq_keepBytes_of_shareBits (isBytes_inv _ _ _ _) ?_
  rw [shareBits_iff_xor_roundBit k p]
  intro i hi
  rw [getMsbD_inv_xor_roundBit hl hi, getMsbD_fwd_of_lt hl hi]

/-- R173: the forward cascade undoes the inverse one. -/
theorem fwd_inv (k p b : Block) {l : Nat} (hl : l ≤ 16) : fwd k p (inv k p b l) l = keepBytes l b := by
  refine eq_keepBytes_of_shareBits (isBytes_fwd _ _ _ _) fun i hi => ?_
  rw [getMsbD_fwd_of_lt hl hi, getMsbD_inv_xor_roundBit hl hi]

/-- Settles O41: on l-byte values the two cascades undo each other, so the forward one is one to one and onto. -/
theorem forwardIsABijectionOnEachLength : Obligations.ForwardIsABijectionOnEachLength := by
  intro k p l _ hl
  have hinv : ∀ a, IsBytes l a → inv k p (fwd k p a l) l = a :=
    fun a ha => (inv_fwd k p a hl).trans (keepBytes_of_isBytes ha)
  refine ⟨fun a => isBytes_fwd k p a l, fun a b ha hb h => ?_, fun b hb => ?_, hinv⟩
  · rw [← hinv a ha, h, hinv b hb]
  · exact ⟨inv k p b l, isBytes_inv k p b l, (fwd_inv k p b hl).trans (keepBytes_of_isBytes hb)⟩

/-- Settles O42: a result bit's equation does not mention the length, only that it is long enough. -/
theorem leadingBytesDoNotDependOnLength : Obligations.LeadingBytesDoNotDependOnLength := by
  intro k p a m l _ hml hl
  refine (eq_keepBytes_of_shareBits (isBytes_fwd k p a m) fun i hi => ?_).symm
  rw [getMsbD_fwd_of_lt (by omega) hi, getMsbD_fwd_of_lt hl (by omega)]

/-! ANON and ANON_U32. -/

/-- R146: the operand is AB as far as the transform looks at it. -/
theorem shareBits_keepBytes {l : Nat} (hl : l ≤ 16) (a : Block) : ShareBits (8 * l) (keepBytes l a) a := by
  intro i hi
  rw [getMsbD_keepBytes _ _ _ (by omega), if_pos hi]

/-- R146: the bits of RB after the transform of ANON. -/
theorem getMsbD_anonymise_rb (s : State) {l i : Nat} (hl : l ≤ 16) (hi : i < 128) :
    (anonymise l s).rb.getMsbD i =
      if i < 8 * l then (s.ab.getMsbD i ^^ roundBit s.k s.p s.ab i) else s.rb.getMsbD i := by
  rw [anonymise_rb, getMsbD_storeBytes _ _ _ _ hi]
  refine if_ctx_congr Iff.rfl (fun h => ?_) fun _ => rfl
  rw [getMsbD_fwd_of_lt hl h]
  exact (shareBits_iff_xor_roundBit s.k s.p _ _ _).mp (shareBits_keepBytes hl s.ab) i h

/-- Settles O29: the command is the transform, and its record update is the frame. -/
theorem anonXorsTheRoundBits : Obligations.AnonXorsTheRoundBits := fun s _ _ l hk hr =>
  ⟨anonymise l s, exec_anon_ok hk hr, rfl, fun _ hi => getMsbD_anonymise_rb s (resolve_ok_range hr).2 hi⟩

/-- R150: a keyed ANON_U32 is the transform of ANON on four bytes. -/
theorem exec_anonU32_ok {s : State} (hk : s.keyed = true) : exec .anonU32 s = .next (anonymise 4 s) := by
  simp [exec, execAnonU32, hk, anonymiseU32_eq]

/-- R71: bit i of register j of a buffer. -/
theorem getMsbD_wordOf (b : Block) {i j : Nat} (hj : j < 4) (hi : i < 32) :
    (wordOf b j).getMsbD i = b.getMsbD (32 * j + i) := by
  rw [wordOf_eq_extract b j hj]
  simp (disch := omega) only [BitVec.getMsbD, BitVec.getLsbD_extractLsb', decide_eq_true, Bool.true_and]
  congr 1
  omega

/-- Settles O31: both commands are the four-byte transform, which stores one register of RB. -/
theorem anonU32EqualsFourByteAnon : Obligations.AnonU32EqualsFourByteAnon := by
  refine fun s hk => ⟨anonymise 4 s, exec_anonU32_ok hk, exec_anon_ok hk rfl, rfl, fun i hi => ?_, fun j hj1 hj => ?_⟩
  · rw [getMsbD_wordOf _ (by omega) hi, getMsbD_wordOf _ (by omega) hi, Nat.mul_zero, Nat.zero_add,
      getMsbD_anonymise_rb s (by omega) (by omega), if_pos (by omega)]
  · rw [anonymise_rb, ← setWord_zero_wordOf, wordOf_setWord _ _ _ _ hj, if_neg (by omega)]

/-! The families. -/

/-- R142: a family's length, and the longest raw length, stand for every length from there on. -/
theorem resolve_of_le {len : Nat} : (4 ≤ len → resolve len .ipv4 = .ok 4) ∧ (16 ≤ len → resolve len .ipv6 = .ok 16) ∧
    (16 ≤ len → resolve len .raw = .ok 16) := by
  refine ⟨fun h => if_neg (Nat.not_lt.mpr h), fun h => if_neg (Nat.not_lt.mpr h), fun h => ?_⟩
  rw [resolve, if_neg (by omega), Config.maxL, Nat.min_eq_right h]

/-- R146, R170: LEN and FAM enter a transform only through `Resolve`. -/
theorem exec_transform_congr {len len' : Nat} {fam fam' : Family} (h : resolve len fam = resolve len' fam')
    (s : State) : exec (.anon len fam) s = exec (.anon len' fam') s ∧
      exec (.deanon len fam) s = exec (.deanon len' fam') s := by
  simp only [exec, execAnon, execDeanon, h, and_self]

/-- Settles O35: the two forms resolve to the same length. -/
theorem taggedAndOverlongFormsEqualRawForms : Obligations.TaggedAndOverlongFormsEqualRawForms := by
  intro s len
  obtain ⟨hipv4, hipv6, hraw⟩ := resolve_of_le (len := len)
  exact ⟨fun h => exec_transform_congr (hipv4 h) s, fun h => exec_transform_congr (hipv6 h) s,
    fun h => exec_transform_congr (hraw h) s⟩

end Sys2Proof.Proofs

/-! PROOFS. The inverse cascade: its map on addresses of each length, and DEANON against ANON (42_inverse.md). -/

namespace Sys2Proof.Proofs

open Sys2Proof.Machine Sys2Proof.Safety Sys2Proof.Laws

/-! The inverse cascade as a map on addresses. -/

/-- Settles O39: the two directions are `inv_fwd` and `fwd_inv`, both from the bit equations of the results. -/
theorem forwardAndInverseUndoEachOther : Obligations.ForwardAndInverseUndoEachOther :=
  fun k p a _ _ hl => ⟨inv_fwd k p a hl, fwd_inv k p a hl⟩

/-- Settles O43: the results share their first n bits as soon as those bits agree with their round bits added, and these
sums are the bits of the inputs. -/
theorem inversePreservesPrefixes : Obligations.InversePreservesPrefixes := by
  intro k p a b l n _ hl hn hab
  rw [shareBits_iff_xor_roundBit k p]
  intro i hi
  rw [getMsbD_inv_xor_roundBit hl (by omega), getMsbD_inv_xor_roundBit hl (by omega), hab i hi]

/-! DEANON. -/

/-- The first l bytes of a buffer after a store of l bytes. -/
theorem shareBits_storeBytes {l : Nat} (hl : l ≤ 16) (d v : Block) : ShareBits (8 * l) (storeBytes d l v) v := by
  intro i hi
  rw [getMsbD_storeBytes _ _ _ _ (by omega), if_pos hi]

/-- R170, R171: the address that the transform of DEANON puts in RB gives AB back when its round bits are added. The
zero bytes after the operand and the old bytes after the result do not enter. -/
theorem getMsbD_deanonymise_rb_xor_roundBit (s : State) {l i : Nat} (hl : l ≤ 16) (hi : i < 8 * l) :
    ((deanonymise l s).rb.getMsbD i ^^ roundBit s.k s.p (deanonymise l s).rb i) = s.ab.getMsbD i := by
  have hstored : ShareBits (8 * l) (deanonymise l s).rb (inv s.k s.p (keepBytes l s.ab) l) :=
    shareBits_storeBytes hl _ _
  rw [(shareBits_iff_xor_roundBit s.k s.p _ _ _).mp hstored i hi, getMsbD_inv_xor_roundBit hl hi,
    shareBits_keepBytes hl s.ab i hi]

/-- R170: the bits of RB beyond the length stay. -/
theorem getMsbD_deanonymise_rb_of_le (s : State) {l i : Nat} (hli : 8 * l ≤ i) (hi : i < 128) :
    (deanonymise l s).rb.getMsbD i = s.rb.getMsbD i := by
  rw [deanonymise_rb, getMsbD_storeBytes _ _ _ _ hi, if_neg (by omega)]

/-- Settles O30: the command is the transform, and its record update is the frame. -/
theorem deanonSolvesForTheAddress : Obligations.DeanonSolvesForTheAddress := fun s _ _ l hk hr =>
  ⟨deanonymise l s, exec_deanon_ok hk hr, rfl,
    fun _ hi => getMsbD_deanonymise_rb_xor_roundBit s (resolve_ok_range hr).2 hi,
    fun _ hli hi => getMsbD_deanonymise_rb_of_le s hli hi⟩

/-! DEANON after ANON, and ANON after DEANON, with the result moved from RB to AB in between. -/

/-- R173: DEANON of an ANON result. Both addresses give the ANON result when their own round bits are added, so they
share the bits. -/
theorem shareBits_deanonymise_anonymise (s : State) {l : Nat} (hl : l ≤ 16) :
    ShareBits (8 * l) (deanonymise l { anonymise l s with ab := (anonymise l s).rb }).rb s.ab := by
  rw [shareBits_iff_xor_roundBit s.k s.p]
  intro i hi
  calc _ = (anonymise l s).rb.getMsbD i :=
        getMsbD_deanonymise_rb_xor_roundBit { anonymise l s with ab := (anonymise l s).rb } hl hi
    _ = (s.ab.getMsbD i ^^ roundBit s.k s.p s.ab i) := by rw [getMsbD_anonymise_rb s hl (by omega), if_pos hi]

/-- R173: ANON of a DEANON result adds to it the round bits for which DEANON solved. -/
theorem shareBits_anonymise_deanonymise (s : State) {l : Nat} (hl : l ≤ 16) :
    ShareBits (8 * l) (anonymise l { deanonymise l s with ab := (deanonymise l s).rb }).rb s.ab := by
  intro i hi
  rw [getMsbD_anonymise_rb _ hl (by omega), if_pos hi]
  exact getMsbD_deanonymise_rb_xor_roundBit s hl hi

/-- Settles O37: neither transform changes KEYED, K or P, so the second command runs too, on the key of the first. -/
theorem deanonAndAnonUndoEachOther : Obligations.DeanonAndAnonUndoEachOther := by
  intro s len fam l hk hr
  have hl : l ≤ 16 := (resolve_ok_range hr).2
  exact ⟨⟨_, _, exec_anon_ok hk hr, exec_deanon_ok hk hr, shareBits_deanonymise_anonymise s hl⟩,
    ⟨_, _, exec_deanon_ok hk hr, exec_anon_ok hk hr, shareBits_anonymise_deanonymise s hl⟩⟩

end Sys2Proof.Proofs

/-! PROOFS. RELEASE: what it zeroises, and how STATUS reports it (43_lifecycle.md). -/

namespace Sys2Proof.Proofs

open Sys2Proof.Machine Sys2Proof.Laws

/-- R190: the body of RELEASE has no check and no error. -/
theorem exec_release (s : State) : exec .release s = .next (zeroiseStage (zeroiseKey s)) := rfl

/-- Settles O26: the two zeroisations are the statement's record update. -/
theorem releaseZeroisesEverySecret : Obligations.ReleaseZeroisesEverySecret := exec_release

/-- R192: zeroising a zeroised block changes nothing. -/
theorem zeroise_idempotent (s : State) :
    zeroiseStage (zeroiseKey (zeroiseStage (zeroiseKey s))) = zeroiseStage (zeroiseKey s) := rfl

/-- Settles O27: the second RELEASE zeroises the state that the first one zeroised. -/
theorem secondReleaseChangesNothing : Obligations.SecondReleaseChangesNothing := by
  intro s t h
  obtain rfl : zeroiseStage (zeroiseKey s) = t := Host.Outcome.next.inj ((exec_release s).symm.trans h)
  rw [exec_release, zeroise_idempotent]

/-- R52: the engine's step on a RELEASE word. -/
theorem step_release {s : State} (hd : engineDue s = true) (hdec : decode s.hasU32 s.cur = .ok .release) :
    step s = .next (finishCommand (zeroiseStage (zeroiseKey (startCommand s)))) := by
  rw [stepRunsDecodedCommand s _ hd hdec, exec_release]
  rfl

/-- R46, R190: the body zeroises four of the fields that ZEROED looks at, and the epilogue the fifth, the scratch. -/
theorem zeroed_after_release (s : State) : zeroed (finishCommand (zeroiseStage (zeroiseKey s))) = true :=
  zeroed_iff.mpr ⟨rfl, rfl, rfl, rfl, rfl⟩

/-- R190, R197: after a complete step of RELEASE, STATUS shows ZEROED and OVR, and every other field 0. -/
theorem statusWord_after_release (s : State) (free : Word) :
    statusWord free (finishCommand (zeroiseStage (zeroiseKey (startCommand s)))) =
      packStatus 0 0 s.ovr true false false := by
  rw [statusWord_idle rfl, zeroed_after_release]
  rfl

/-- R33: the STATUS word of a released block. -/
theorem packStatus_released (ovr : Bool) :
    packStatus 0 0 ovr true false false = if ovr then 0x0000000C else 0x00000004 := by
  cases ovr <;> decide

/-- R33, R46: bit 2 of STATUS of an idle block is ZEROED. -/
theorem statusWord_idle_bit_zeroed {s : State} (hb : s.busy = false) (free : Word) :
    (statusWord free s).getLsbD 2 = zeroed s := by
  obtain ⟨_, _, hbit, _⟩ := packStatus_fields s.rlen s.err s.ovr (zeroed s) s.keyed false
  rw [statusWord_idle hb, hbit]

/-- R46, R197: one nonzero secret is enough for ZEROED to be 0. -/
theorem zeroed_eq_false_of_secret {s : State}
    (h : s.k ≠ 0 ∨ s.p ≠ 0 ∨ s.ks ≠ KeySchedule.zero ∨ s.stage ≠ 0) : zeroed s = false := by
  rw [← Bool.not_eq_true, zeroed_iff]
  rintro ⟨hk, hp, hks, hstage, _⟩
  rcases h with h | h | h | h
  · exact h hk
  · exact h hp
  · exact h hks
  · exact h hstage

/-- Settles O28: STATUS of an idle block shows ZEROED, which is 1 of what the step of RELEASE leaves and 0 of a block
that kept a secret. -/
theorem zeroedReportsZeroStateAfterRelease : Obligations.ZeroedReportsZeroStateAfterRelease := by
  refine ⟨fun s hd hdec => ⟨_, step_release hd hdec, fun free => ?_, fun free => ?_⟩, fun u free hb hsecret => ?_⟩
  · rw [statusWord_idle_bit_zeroed rfl, zeroed_after_release]
  · rw [statusWord_after_release, packStatus_released]
  · rw [statusWord_idle_bit_zeroed hb, zeroed_eq_false_of_secret hsecret]

end Sys2Proof.Proofs

/-! PROOFS. AES-128: the key schedule's recurrence, the rounds, the cells of the steps, and the S-box's algebra
(45_aes128.md). -/

namespace Sys2Proof.Proofs

open Sys2Proof.Machine Sys2Proof.Safety Sys2Proof.Laws

/-! The key schedule. -/

/-- R214: the steps of the schedule, each under its own entry of the Rcon table. -/
theorem roundKey_succ (k : Block) {r : Nat} (hr : r < 10) :
    roundKey (keyExpansion k) (r + 1) = nextRoundKey (rconByte (r + 1)) (roundKey (keyExpansion k) r) := by
  interval_cases r <;> rfl

/-- R214: the words `w[i]` for i a positive multiple of 4. -/
theorem scheduleWord_first (k : Block) {r : Nat} (hr : r < 10) :
    scheduleWord (keyExpansion k) (4 * (r + 1)) = scheduleWord (keyExpansion k) (4 * r) ^^^
      (subWord (rotWord (scheduleWord (keyExpansion k) (4 * r + 3))) ^^^ wordBe (rconByte (r + 1)) 0 0 0) := by
  obtain ⟨h0, _⟩ := wordOf_nextRoundKey (rconByte (r + 1)) (roundKey (keyExpansion k) r)
  have hword (r : Nat) := scheduleWord_of_roundKey (keyExpansion k) r 0 (by omega)
  simp only [Nat.add_zero] at hword
  rw [hword, hword, scheduleWord_of_roundKey _ _ _ (by omega), roundKey_succ k hr, h0]

/-- R214: the other words of a round key. -/
theorem scheduleWord_next (k : Block) {r j : Nat} (hr : r < 10) (hj : j < 3) :
    scheduleWord (keyExpansion k) (4 * (r + 1) + (j + 1)) =
      scheduleWord (keyExpansion k) (4 * r + (j + 1)) ^^^ scheduleWord (keyExpansion k) (4 * (r + 1) + j) := by
  obtain ⟨_, h1, h2, h3⟩ := wordOf_nextRoundKey (rconByte (r + 1)) (roundKey (keyExpansion k) r)
  simp only [scheduleWord_of_roundKey _ _ _ (show j < 4 by omega),
    scheduleWord_of_roundKey _ _ _ (show j + 1 < 4 by omega), roundKey_succ k hr]
  interval_cases j
  · exact h1
  · exact h2
  · exact h3

/-- Settles O44: word i is the first word of its round key or a later one. -/
theorem keyScheduleFollowsItsRecurrence : Obligations.KeyScheduleFollowsItsRecurrence := by
  intro k
  obtain ⟨hrk0, _⟩ := keyExpansion_chain k
  refine ⟨hrk0, fun i hi => ?_, fun i h4 h44 => ?_⟩
  · have h := scheduleWord_of_roundKey (keyExpansion k) 0 i hi
    rwa [Nat.mul_zero, Nat.zero_add] at h
  · obtain ⟨r, j, hj, rfl⟩ : ∃ r j, j < 4 ∧ i = 4 * (r + 1) + j := ⟨i / 4 - 1, i % 4, by omega, by omega⟩
    have hr : r < 10 := by omega
    cases j with
    | zero =>
      rw [if_pos (by omega), show 4 * (r + 1) + 0 - 4 = 4 * r by omega,
        show 4 * (r + 1) + 0 - 1 = 4 * r + 3 by omega, show (4 * (r + 1) + 0) / 4 = r + 1 by omega]
      exact scheduleWord_first k hr
    | succ j =>
      rw [if_neg (by omega), show 4 * (r + 1) + (j + 1) - 4 = 4 * r + (j + 1) by omega]
      exact scheduleWord_next k hr (by omega)

/-- Settles O45: RK1 of the zero key is computed. -/
theorem noKeyHasAnAllZeroSchedule : Obligations.NoKeyHasAnAllZeroSchedule := by
  obtain ⟨_, hrk1, _⟩ := keyExpansion_chain 0
  exact ⟨hrk1.trans nextRoundKey_zero, keyExpansion_ne_zero⟩

/-! The rounds. -/

/-- R210: the state after round r, for r in 0 … 9. -/
def stateAfterRound (ks : KeySchedule) (x : Block) : Nat → Block
  | 0 => addRoundKey x (roundKey ks 0)
  | r + 1 => cipherRound (stateAfterRound ks x r) (roundKey ks (r + 1))

/-- R210: the cipher is the tenth round on the state after the ninth. -/
theorem cipher_eq_lastRound (ks : KeySchedule) (x : Block) :
    cipher ks x = addRoundKey (shiftRows (subBytes (stateAfterRound ks x 9))) (roundKey ks 10) := rfl

/-- Settles O59: the states are those after each round. -/
theorem aesRunsTenRounds : Obligations.AesRunsTenRounds := by
  intro k x
  refine ⟨stateAfterRound (keyExpansion k) x, rfl, fun r h1 _ => ?_, cipher_eq_lastRound _ x⟩
  obtain ⟨r, rfl⟩ := Nat.exists_eq_add_of_le' h1
  rfl

/-! The cells of the steps. -/

/-- R217: row r of each column is a sum of the column's bytes. -/
theorem cellOf_mixColumns (s : Block) {r c : Nat} (hr : r < 4) (hc : c < 4) :
    cellOf (mixColumns s) r c = mixCell r (cellOf s 0 c) (cellOf s 1 c) (cellOf s 2 c) (cellOf s 3 c) :=
  cellOf_blockOfCells _ hr hc

/-- Settles O46: three of the steps build their block from cells, and AddRoundKey is an XOR of blocks. -/
theorem aesStepsActCellByCell : Obligations.AesStepsActCellByCell := by
  intro s rk r c hr hc
  exact ⟨cellOf_blockOfCells _ hr hc, cellOf_blockOfCells _ hr hc,
    cellOf_mixColumns s (by decide) hc, cellOf_mixColumns s (by decide) hc,
    cellOf_mixColumns s (by decide) hc, cellOf_mixColumns s (by decide) hc, byteOf_xor s rk _⟩

/-! The S-box. -/

/-- The inverse of the affine map of R213. -/
def affineInverse (b : Byte) : Byte := b.rotateLeft 1 ^^^ b.rotateLeft 3 ^^^ b.rotateLeft 6 ^^^ 0x05

theorem affineMap_affineInverse (b : Byte) : affineMap (affineInverse b) = b := by
  revert b
  decide

theorem affineInverse_sbox_zero : affineInverse (sbox 0) = 0 := by decide

/-- R212, R213: checked for each of the 255 nonzero entries, since the S-box is a table. -/
theorem fieldMul_affineInverse_sbox (v : Byte) (hv : v ≠ 0) : fieldMul v (affineInverse (sbox v)) = 1 := by
  revert v
  decide

/-- Settles O58: the affine map takes the inverse, 0 for 0, that its own inverse finds in the table's entry. -/
theorem sboxIsInverseThenAffineMap : Obligations.SboxIsInverseThenAffineMap := by
  refine ⟨by decide, fun v => ⟨affineInverse (sbox v), ?_, (affineMap_affineInverse (sbox v)).symm⟩⟩
  split
  · next h => rw [h, affineInverse_sbox_zero]
  · next h => exact fieldMul_affineInverse_sbox v h

end Sys2Proof.Proofs

/-! PROOFS. Errors: which code a command records and when, and what a failed command leaves (60_exceptions.md). -/

namespace Sys2Proof.Proofs

open Sys2Proof.Machine Sys2Proof.Safety Sys2Proof.Laws

/-! The causes of each error. -/

/-- R240: no two error kinds have one code. -/
theorem errCode_injective : Function.Injective errCode := by
  intro e f
  cases e <;> cases f <;> decide

/-- R241 to R244: the command and the state for which a body records the error. -/
def Raises (s : State) (i : Instr) : ErrorKind → Prop
  | .invalidKey => ∃ slen asc, i = .setup slen asc ∧ (slen < 32 ∨ (asc = true ∧ stageNotAscii s.stage = true))
  | .disposed => s.keyed = false ∧ ((∃ len fam, i = .anon len fam) ∨ (∃ len fam, i = .deanon len fam) ∨ i = .anonU32)
  | .invalidFamily => s.keyed = true ∧ ∃ len code, i = .anon len (.other code) ∨ i = .deanon len (.other code)
  | .invalidInput => s.keyed = true ∧ ∃ len fam, (i = .anon len fam ∨ i = .deanon len fam) ∧
      ((fam = .raw ∧ len = 0) ∨ (fam = .ipv4 ∧ len < 4) ∨ (fam = .ipv6 ∧ len < 16))
  | .none | .internal | .illegalCommand => False

/-- A code that ERR did not hold before the body is there for its cause. -/
theorem raises_of_err {s t : State} {i : Instr} (e : ErrorKind) (hold : s.err ≠ errCode e)
    (hexec : exec i s = .next t) (hnew : t.err = errCode e) : Raises s i e := by
  rcases exec_err_cases hexec with hkept | ⟨hcode, hcause⟩ | ⟨hcode, hcause⟩ | ⟨hcode, hcause⟩ | ⟨hcode, hcause⟩
  · exact absurd (hkept.symm.trans hnew) hold
  · obtain rfl : e = .invalidKey := errCode_injective (hnew.symm.trans hcode)
    exact hcause
  · obtain rfl : e = .disposed := errCode_injective (hnew.symm.trans hcode)
    exact hcause
  · obtain rfl : e = .invalidFamily := errCode_injective (hnew.symm.trans hcode)
    exact hcause
  · obtain rfl : e = .invalidInput := errCode_injective (hnew.symm.trans hcode)
    exact hcause

/-! InvalidKey. -/

/-- R124: the ASCII check fails exactly when a staged byte is 0x80 or more. -/
theorem stageNotAscii_iff_byte {st : Secret} :
    stageNotAscii st = true ↔ ∃ i, i < 32 ∧ 0x80 ≤ (stageByte st i).toNat := by
  simp only [stageNotAscii_iff, getLsbD_seven_iff]

/-- R120, R241: a SETUP that fails one of its checks has released the old key, and zeroes STAGE. -/
theorem exec_setup_fail {s : State} {slen : Nat} {asc : Bool}
    (h : slen < 32 ∨ (asc = true ∧ stageNotAscii s.stage = true)) :
    exec (.setup slen asc) s = .next (zeroiseStage (fail .invalidKey (zeroiseKey s))) := by
  rw [exec, execSetup]
  rcases setupBody_cases slen asc (zeroiseKey s) with ⟨_, hfail⟩ | ⟨⟨hlen, hasc⟩, _⟩
  · rw [hfail]
  · exact absurd h (not_or.mpr ⟨by omega, hasc⟩)

/-- Settles O25: the failing path of SETUP, and the one cause of its code. -/
theorem failedSetupUnkeysAndZeroises : Obligations.FailedSetupUnkeysAndZeroises := by
  unfold Obligations.FailedSetupUnkeysAndZeroises
  simp only [← stageNotAscii_iff_byte]
  exact ⟨fun _ _ _ h => exec_setup_fail h, fun _ _ _ hold hexec hnew => raises_of_err .invalidKey hold hexec hnew⟩

/-! Disposed, InvalidFamily and InvalidInput: the errors of the transforms. -/

/-- R244: the transforms on an un-keyed block. -/
theorem exec_transform_disposed {s : State} (hk : s.keyed = false) (len : Nat) (fam : Family) :
    exec (.anon len fam) s = .next (fail .disposed s) ∧ exec (.deanon len fam) s = .next (fail .disposed s) ∧
    exec .anonU32 s = .next (fail .disposed s) := by
  simp [exec, execAnon, execDeanon, execAnonU32, hk]

/-- R142: keyed transforms whose operands do not resolve. -/
theorem exec_transform_error {s : State} {len : Nat} {fam : Family} {e : ErrorKind} (hk : s.keyed = true)
    (hr : resolve len fam = .error e) :
    exec (.anon len fam) s = .next (fail e s) ∧ exec (.deanon len fam) s = .next (fail e s) := by
  simp [exec, execAnon, execDeanon, hk, hr]

/-- Settles O32: the first check of each transform, and the one cause of its code. -/
theorem transformsAreDisposedWhenUnkeyed : Obligations.TransformsAreDisposedWhenUnkeyed :=
  ⟨fun _ len fam hk => exec_transform_disposed hk len fam,
    fun _ _ _ hold hexec hnew => raises_of_err .disposed hold hexec hnew⟩

/-- R106: the words whose FAM field names no family. -/
theorem famOf_eq_other_iff (w : Word) :
    (∃ code, famOf w = .other code ∧ 3 ≤ code ∧ code ≤ 7) ↔ 3 ≤ w.toNat / 2 ^ 9 % 8 := by
  rw [famOf_eq]
  constructor
  · rintro ⟨code, hfam, hlo, _⟩
    have hcode : w.toNat / 2 ^ 9 % 8 = code := (famCode_familyOf _).symm.trans (congrArg famCode hfam)
    rwa [hcode]
  · intro hlo
    rcases familyOf_cases (w.toNat / 2 ^ 9 % 8) with ⟨_, _⟩ | ⟨_, _⟩ | ⟨_, _⟩ | ⟨_, hfam⟩
    case inr.inr.inr => exact ⟨_, hfam, hlo, by omega⟩
    all_goals omega

/-- R101: FAM bounds the code of another family in a command that the encoding can express. -/
theorem otherCode_range_of_wf {i : Instr} {len code : Nat} (hwf : i.wf = true)
    (hi : i = .anon len (.other code) ∨ i = .deanon len (.other code)) : 3 ≤ code ∧ code ≤ 7 := by
  obtain ⟨_, hrange⟩ : len < 32 ∧ 3 ≤ code ∧ code ≤ 7 := by
    rcases hi with rfl | rfl <;> simpa [Instr.wf, Family.wf] using hwf
  exact hrange

/-- Settles O33: such operands do not resolve, and FAM bounds the code where the error is raised. -/
theorem otherFamiliesAreInvalid : Obligations.OtherFamiliesAreInvalid := by
  refine ⟨fun _ _ _ hk _ _ => exec_transform_error (e := .invalidFamily) hk rfl, famOf_eq_other_iff,
    fun s t i hwf hold hexec hnew => ?_⟩
  obtain ⟨hk, len, code, hi⟩ := raises_of_err .invalidFamily hold hexec hnew
  exact ⟨hk, len, code, hi, otherCode_range_of_wf hwf hi⟩

/-- R142, R242: the lengths that are too short for their family. -/
theorem resolve_tooShort {len : Nat} {fam : Family}
    (h : (fam = .raw ∧ len = 0) ∨ (fam = .ipv4 ∧ len < 4) ∨ (fam = .ipv6 ∧ len < 16)) :
    resolve len fam = .error .invalidInput := by
  rcases h with ⟨rfl, hlen⟩ | ⟨rfl, hlen⟩ | ⟨rfl, hlen⟩ <;> exact if_pos hlen

/-- Settles O34: such operands do not resolve, and the code has no other cause. -/
theorem tooShortAddressesAreInvalidInput : Obligations.TooShortAddressesAreInvalidInput :=
  ⟨fun _ _ _ hk hshort => exec_transform_error hk (resolve_tooShort hshort),
    fun _ _ _ hold hexec hnew => raises_of_err .invalidInput hold hexec hnew⟩

/-! IllegalCommand. -/

/-- R107: the engine's step on an illegal word. -/
theorem step_illegal {s : State} (hd : engineDue s = true) (hw : IllegalWord s.hasU32 s.cur) :
    step s = .next (finishCommand (fail .illegalCommand (startCommand s))) := by
  rcases step_due_cases hd with ⟨_, _, hstep⟩ | ⟨i, _, hdec, _, _⟩
  · exact hstep
  · exact absurd hw (decode_ok_iff_legal.mp ⟨i, hdec⟩)

/-- Settles O7: between the two halves of the complete step there is only the code. -/
theorem illegalCommandOnlyRecordsItsCode : Obligations.IllegalCommandOnlyRecordsItsCode :=
  fun _ hd hw => ⟨_, step_illegal hd hw, rfl⟩

/-! The order of precedence (R252). A body starts from ERR = 0, so that 0 says that no cause applied. -/

/-- R242, R243: the code of the first cause among the operands of a transform, 0 where none applies. -/
def operandError (code len : Nat) : BitVec 4 :=
  if 3 ≤ code then 3
  else if code = 0 ∧ len = 0 then 2
  else if code = 1 ∧ len < 4 then 2
  else if code = 2 ∧ len < 16 then 2
  else 0

/-- R142: `Resolve` finds that cause. -/
theorem resolve_familyOf (code len : Nat) :
    (∃ e, resolve len (familyOf code) = .error e ∧ operandError code len = errCode e) ∨
    (∃ l, resolve len (familyOf code) = .ok l ∧ operandError code len = 0) := by
  rcases familyOf_cases code with ⟨rfl, hfam⟩ | ⟨rfl, hfam⟩ | ⟨rfl, hfam⟩ | ⟨hcode, hfam⟩ <;> rw [hfam]
  · by_cases hlen : len = 0 <;> simp [resolve, operandError, errCode, hlen]
  · by_cases hlen : len < 4 <;> simp [resolve, operandError, errCode, hlen, Config.ipv4L]
  · by_cases hlen : len < 16 <;> simp [resolve, operandError, errCode, hlen, Config.ipv6L]
  · exact .inl ⟨.invalidFamily, rfl, if_pos hcode⟩

/-- R146, R170: what the body of ANON or DEANON leaves in ERR. -/
theorem exec_transform_err {s t : State} {i : Instr} {len code : Nat}
    (hi : i = .anon len (familyOf code) ∨ i = .deanon len (familyOf code))
    (hexec : exec i (startCommand s) = .next t) :
    t.err = if s.keyed = false then 4 else operandError code len := by
  cases hk : s.keyed with
  | false =>
    obtain ⟨hanon, hdeanon, _⟩ := exec_transform_disposed (s := startCommand s) hk len (familyOf code)
    rcases hi with rfl | rfl
    · cases hanon.symm.trans hexec
      rfl
    · cases hdeanon.symm.trans hexec
      rfl
  | true =>
    rcases resolve_familyOf code len with ⟨e, hr, hcode⟩ | ⟨l, hr, hcode⟩ <;> rw [hcode]
    · obtain ⟨hanon, hdeanon⟩ := exec_transform_error (s := startCommand s) hk hr
      rcases hi with rfl | rfl
      · cases hanon.symm.trans hexec
        rfl
      · cases hdeanon.symm.trans hexec
        rfl
    · rcases hi with rfl | rfl
      · cases (exec_anon_ok (s := startCommand s) hk hr).symm.trans hexec
        rfl
      · cases (exec_deanon_ok (s := startCommand s) hk hr).symm.trans hexec
        rfl

/-- R150: what the body of ANON_U32 leaves in ERR. -/
theorem exec_anonU32_err {s t : State} (hexec : exec .anonU32 (startCommand s) = .next t) :
    t.err = if s.keyed = false then 4 else 0 := by
  cases hk : s.keyed with
  | false =>
    obtain ⟨_, _, hfail⟩ := exec_transform_disposed (s := startCommand s) hk 0 .raw
    cases hfail.symm.trans hexec
    rfl
  | true =>
    cases (exec_anonU32_ok (s := startCommand s) hk).symm.trans hexec
    rfl

/-- R120: what the body of SETUP leaves in ERR. -/
theorem exec_setup_err {s t : State} {slen : Nat} {asc : Bool}
    (hexec : exec (.setup slen asc) (startCommand s) = .next t) :
    t.err = if slen < 32 then 1 else if asc = true ∧ stageNotAscii s.stage = true then 1 else 0 := by
  by_cases hfail : slen < 32 ∨ (asc = true ∧ stageNotAscii s.stage = true)
  · cases (exec_setup_fail (s := startCommand s) hfail).symm.trans hexec
    rw [← ite_or, if_pos hfail]
    rfl
  · obtain ⟨hlen, hasc⟩ := not_or.mp hfail
    cases (exec_setup_ok (s := startCommand s) (by omega) hasc).symm.trans hexec
    rw [if_neg hlen, if_neg hasc]
    rfl

/-- R124: the ASCII check as a test of the staged bytes as numbers. -/
theorem stageNotAscii_eq_any (st : Secret) :
    stageNotAscii st = (List.range 32).any fun i => decide (0x80 ≤ (stageByte st i).toNat) := by
  rw [Bool.eq_iff_iff, stageNotAscii_iff_byte]
  simp

/-- Settles O9: an illegal word leaves 6; otherwise the row of the word says which body ran, and the causes of each body
are tried in its order. -/
theorem firstErrorInPrecedenceIsRecorded : Obligations.FirstErrorInPrecedenceIsRecorded := by
  intro s hd
  by_cases hw : IllegalWord s.hasU32 s.cur
  · exact ⟨_, step_illegal hd hw, (if_pos hw).symm⟩
  rcases step_due_cases hd with ⟨r, hdec, _⟩ | ⟨i, u, hdec, hexec, hstep⟩
  · exact absurd ((decoderRejectsExactlyIllegalWords _ _).mp ⟨r, hdec⟩) hw
  refine ⟨_, hstep, ?_⟩
  rw [if_neg hw, finishCommand_err]
  rcases decode_ok_cases hdec with ⟨hopc, _, rfl⟩ | ⟨hopc, _, rfl⟩ | ⟨hopc, _, rfl⟩ | ⟨hopc, _, rfl⟩ |
    ⟨hopc, _, _, rfl⟩
  · rw [if_pos hopc, exec_setup_err hexec, slenOf_eq, stageNotAscii_eq_any]
    simp only [ascOf_eq, decide_eq_true_iff]
  · rw [famOf_eq] at hexec
    rw [exec_transform_err (.inl rfl) hexec, lenOf_eq]
    simp [hopc, operandError]
  · rw [famOf_eq] at hexec
    rw [exec_transform_err (.inr rfl) hexec, lenOf_eq]
    simp [hopc, operandError]
  · cases hexec
    simp [hopc]
  · rw [exec_anonU32_err hexec]
    simp [hopc]

/-- Settles O10: the codes that the order of precedence leaves for each opcode. -/
theorem errorCodesOfEachCommand : Obligations.ErrorCodesOfEachCommand := by
  intro s t hd hstep
  obtain ⟨t', hstep', herr⟩ := firstErrorInPrecedenceIsRecorded s hd
  obtain rfl : t' = t := Host.Outcome.next.inj (hstep'.symm.trans hstep)
  rw [herr]
  refine ⟨fun hopc => ?_, fun hopc => ?_, fun hopc => ?_, fun hopc => ?_, fun hopc => ?_, fun hopc => ?_⟩
  case refine_6 => exact if_pos (hopc.elim .inl fun h => .inr (.inl h))
  all_goals
    simp only [hopc, Nat.reduceEqDiff, if_true, if_false]
    split_ifs <;> simp

end Sys2Proof.Proofs

/-! PROOFS. Reset and the end of a WAIT (70_reset_and_hazards.md). -/

namespace Sys2Proof.Proofs

open Sys2Proof.Machine Sys2Proof.Safety Sys2Proof.Laws

/-! Reset. -/

/-- R280, R282: on the host's turn, reset is one step, whatever the state. -/
theorem step_reset {s : State} {rest : List HostOp} (h : HostTurn s .reset rest) :
    step s = .next (resetBlock (takeOp rest s)) :=
  step_of_host h.1 h.2

/-- R54: STATUS after reset shows ZEROED, and every other field 0. -/
theorem statusWord_resetBlock (s : State) (free : Word) : statusWord free (resetBlock s) = 0x00000004 := by
  have hzeroed : zeroed (resetBlock s) = true := zeroed_iff.mpr ⟨rfl, rfl, rfl, rfl, rfl⟩
  rw [statusWord_idle rfl, hzeroed]
  exact packStatus_released false

/-- Settles O22: the step is `resetBlock`, which sets every field, and STATUS is computed from the fields. -/
theorem resetGivesEveryRegisterItsResetValue : Obligations.ResetGivesEveryRegisterItsResetValue :=
  fun _ _ hturn => ⟨_, step_reset hturn, rfl, rfl, rfl, rfl, rfl, rfl, rfl, rfl, rfl, rfl, rfl, rfl, rfl, rfl,
    statusWord_resetBlock _⟩

/-! WAIT. -/

/-- In at most `bound` steps from `s` the WAIT is done, `rest` is what the host still has to do, the block is idle, and
the last word read is its STATUS. -/
def WaitEndsWithin (bound : Nat) (rest : List HostOp) (s : State) : Prop :=
  ∃ n t v earlier, n ≤ bound ∧ Sys2Proof.core.run n s = .next t ∧ t.host = rest ∧ t.busy = false ∧
    t.seen = v :: earlier ∧ v.getLsbD 0 = false ∧ ∀ free, statusWord free t = v

theorem WaitEndsWithin.mono {b c : Nat} {rest : List HostOp} {s : State} (h : WaitEndsWithin b rest s) (hbc : b ≤ c) :
    WaitEndsWithin c rest s := by
  obtain ⟨n, t, v, earlier, hn, hend⟩ := h
  exact ⟨n, t, v, earlier, hn.trans hbc, hend⟩

theorem run_succ_of_step {s u : State} (h : step s = .next u) (n : Nat) :
    Sys2Proof.core.run (n + 1) s = Sys2Proof.core.run n u := by
  have hcore : Sys2Proof.core.step s = .next u := h
  simp only [Host.Core.run, hcore]

/-- One step before a WAIT that ends costs one step more. -/
theorem waitEndsWithin_of_step {b : Nat} {rest : List HostOp} {s u : State} (h : step s = .next u)
    (hu : WaitEndsWithin b rest u) : WaitEndsWithin (b + 1) rest s := by
  obtain ⟨n, t, v, earlier, hn, hrun, hend⟩ := hu
  exact ⟨n + 1, t, v, earlier, Nat.succ_le_succ hn, (run_succ_of_step h n).trans hrun, hend⟩

/-- R109: a poll of an idle block reads STATUS and ends the WAIT. -/
theorem step_wait_idle {s : State} {rest : List HostOp} (hb : s.busy = false) (hhost : s.host = .wait :: rest) :
    step s = .next (recordRead .status (takeOp rest s)) := by
  rw [step_of_host (engineDue_idle hb) hhost]
  rcases hostPoll_cases (takeOp rest s) with ⟨hbusy, _⟩ | ⟨_, e⟩
  · exact absurd (hb.symm.trans hbusy) Bool.false_ne_true
  · exact congrArg Host.Outcome.next e

/-- R109: a poll while BUSY = 1 goes on waiting, and one host operation fewer is left before the complete step. -/
theorem step_wait_busy {s : State} {rest : List HostOp} (hb : s.busy = true) (hturn : HostTurn s .wait rest) :
    ∃ u, step s = .next u ∧ u.host = .wait :: rest ∧ u.left = s.left - 1 := by
  rw [step_of_host hturn.1 hturn.2]
  rcases hostPoll_cases (takeOp rest s) with ⟨_, e⟩ | ⟨hidle, _⟩
  · exact ⟨_, congrArg Host.Outcome.next e, rfl, rfl⟩
  · exact absurd (hidle.symm.trans hb) Bool.false_ne_true

/-- R290: the STATUS word that ends a WAIT shows the idle block, for a poll changes no field of STATUS. -/
theorem waitEndsWithin_one_of_idle {s : State} {rest : List HostOp} (hb : s.busy = false)
    (hhost : s.host = .wait :: rest) : WaitEndsWithin 1 rest s := by
  have hstatus (free : Word) : statusWord free s = packStatus s.rlen s.err s.ovr (zeroed s) s.keyed false :=
    statusWord_idle hb free
  obtain ⟨hbit, _⟩ := packStatus_fields s.rlen s.err s.ovr (zeroed s) s.keyed false
  exact ⟨1, _, _, s.seen, le_rfl, run_succ_of_step (step_wait_idle hb hhost) 0, rfl, hb,
    congrArg (· :: s.seen) (hstatus (Config.busyWord s.draws)), hbit, hstatus⟩

/-- R285: when the engine is due, its complete step makes the block idle, and the next poll ends the WAIT. -/
theorem waitEndsWithin_two_of_due {s : State} {rest : List HostOp} (hd : engineDue s = true)
    (hhost : s.host = .wait :: rest) : WaitEndsWithin 2 rest s := by
  obtain ⟨u, hst, hidle, _, _, _, _, _, _, hkeep, _⟩ := everyCompleteStepEndsItsCommand s hd
  exact waitEndsWithin_of_step hst (waitEndsWithin_one_of_idle hidle (hkeep.trans hhost))

/-- Settles O53, by induction on `left`: an idle block ends the WAIT at once; with a command in flight the engine is due
when `left` is 0, and otherwise the poll takes one from `left`. -/
theorem waitEndsWithTheFinishedStatus : Obligations.WaitEndsWithTheFinishedStatus := by
  intro s rest hhost
  change WaitEndsWithin (s.left + 2) rest s
  induction hleft : s.left generalizing s with
  | zero =>
    cases hb : s.busy with
    | false => exact (waitEndsWithin_one_of_idle hb hhost).mono (by omega)
    | true => exact waitEndsWithin_two_of_due (engineDue_iff.mpr ⟨hb, .inl hleft⟩) hhost
  | succ k ih =>
    cases hb : s.busy with
    | false => exact (waitEndsWithin_one_of_idle hb hhost).mono (by omega)
    | true =>
      have hnotDue : engineDue s = false := by simp [engineDue, hleft, hhost]
      obtain ⟨u, hst, huhost, huleft⟩ := step_wait_busy hb ⟨hnotDue, hhost⟩
      exact waitEndsWithin_of_step hst (ih u huhost (by omega))

end Sys2Proof.Proofs
